-- ==== Sys2Proof/Word.lean ====
section
/-! DEFINITION. The bit vectors of the machine: a byte of memory, an address, an instruction word (00_scope.md R5, R7). -/

namespace Sys2Proof

/-- One byte: the width of the data path and of a memory cell (R5, R20). -/
abbrev Byte := BitVec 8

/-- A flat 16-bit memory address; sums of addresses are modulo 2^16 (R7, R53). -/
abbrev Addr := BitVec 16

/-- One 32-bit instruction word (R70). -/
abbrev Word := BitVec 32

end Sys2Proof
end

