-- ==== Sys2Proof/Config.lean ====
section
/-! DEFINITION. The parameters of the machine (00_scope.md R6), at the values the spec takes, and the OPEN ones. -/

namespace Sys2Proof.Config

/-- The address of register index 0 (R21; the spec's decision D5). -/
def regBase : Addr := 0xFF00

/-- The first index of each named register (R23; the spec's decision D6). -/
def idxZero : Nat := 0x00

@[inherit_doc idxZero]
def idxPc : Nat := 0x02

@[inherit_doc idxZero]
def idxXx : Nat := 0x04

@[inherit_doc idxZero]
def idxSr : Nat := 0x06

@[inherit_doc idxZero]
def idxSp : Nat := 0x07

/-- AUTO_ADVANCE: the implicit PC += 4 of R112 (the spec's decision D9). Log 6. -/
def autoAdvance : Bool := true

/-- GT_STRICT: GT also needs Z clear (R114; the spec's decision D19). Log 6. -/
def gtStrict : Bool := true

/-- START_ADDR, OPEN in the spec (R6, D20). DESIGN CHOICE, unsafe: 0x0100, where every program of 95_test_vectors.md is
placed. Log 1. `State.load` takes any other value as an argument. -/
def startAddr : Addr := 0x0100

/-- SCREEN_REGION, OPEN in the spec (R6, R58, D29): no value is given here, and no rule of the core reads it. Log 9. -/
opaque screenRegion : List Addr

end Sys2Proof.Config
end

