-- ==== Sys2Proof/Machine/Memory.lean ====
section
/-! DEFINITION. The memory array M (10_state.md R20) as a list of cells in one canonical form (log 13), its primitives
MemRead and MemWrite (00_scope.md R8), and the addresses of the registers in it (R9, R10, R21). -/

namespace Sys2Proof.Machine

/-- The array M: the cells whose byte differs from `unlistedByte`, by rising address. -/
abbrev Memory := List Host.Cell

/-- What an address with no cell reads as: the zero fill of R221 (log 3). -/
def unlistedByte : Byte := 0x00

/-- The canonical form: addresses strictly rising and below 65536, no cell equal to what an unlisted address reads as. -/
abbrev Memory.wf (m : Memory) : Prop :=
  m.Pairwise (fun c d => c.1 < d.1) ∧ ∀ c ∈ m, c.1 < 65536 ∧ c.2 ≠ unlistedByte

/-- The byte of the first cell at address `k`, or what an unlisted address reads as. -/
def Memory.lookup : Memory → Nat → Byte
  | [], _ => unlistedByte
  | c :: m, k => if c.1 = k then c.2 else Memory.lookup m k

/-- The memory with no cell at address `k`. -/
def Memory.erase (m : Memory) (k : Nat) : Memory :=
  m.filter (fun c => decide (c.1 ≠ k))

/-- The memory with a cell put before the first one of a higher address. -/
def Memory.place : Memory → Nat → Byte → Memory
  | [], k, v => [(k, v)]
  | c :: m, k, v => if k < c.1 then (k, v) :: c :: m else c :: Memory.place m k v

/-- M[a]: MemRead of one byte (R8). Every address is readable (R52). -/
def Memory.read (m : Memory) (a : Addr) : Byte :=
  m.lookup a.toNat

/-- MemWrite of one byte (R8). Every address is writable (R52). -/
def Memory.write (m : Memory) (a : Addr) (v : Byte) : Memory :=
  if v = unlistedByte then m.erase a.toNat else (m.erase a.toNat).place a.toNat v

/-- MemRead of two bytes, little-endian, addresses modulo 2^16 (R8, R51, R53). -/
def Memory.read16 (m : Memory) (a : Addr) : BitVec 16 :=
  m.read (a + 1) ++ m.read a

/-- MemWrite of two bytes, little-endian, low byte first (R8). -/
def Memory.write16 (m : Memory) (a : Addr) (v : BitVec 16) : Memory :=
  (m.write a (v.extractLsb' 0 8)).write (a + 1) (v.extractLsb' 8 8)

/-- MemRead of four bytes, little-endian: the fetch (R8, R50, R111). -/
def Memory.read32 (m : Memory) (a : Addr) : Word :=
  m.read (a + 3) ++ (m.read (a + 2) ++ (m.read (a + 1) ++ m.read a))

/-- Consecutive bytes from `a` upward, addresses modulo 2^16: how PROGRAM is placed (R221). -/
def Memory.writeBytes : Memory → Addr → List Byte → Memory
  | m, _, [] => m
  | m, a, b :: bs => Memory.writeBytes (m.write a b) (a + 1) bs

/-- What a reader of a region sees: the bytes there, no special semantics (R58). -/
def Memory.screenView (region : List Addr) (m : Memory) : List Byte :=
  region.map m.read

/-- RegAddr(i) = (REG_BASE + i) mod 2^16 (R9, R21); `i` may be 256 in a word's second turn. -/
def regAddr (i : Nat) : Addr :=
  Config.regBase + BitVec.ofNat 16 i

/-- PC_ADDR (R10): 0xFF02. -/
def pcAddr : Addr := regAddr Config.idxPc

/-- SR_ADDR (R10): 0xFF06. -/
def srAddr : Addr := regAddr Config.idxSr

end Sys2Proof.Machine
end

