-- ==== Sys2Proof/Machine/State.lean ====
section
/-! DEFINITION. The state of the machine (10_state.md R20, R33), the reasons a step can stop, and the state after
reset (70_reset_and_hazards.md R221). -/

namespace Sys2Proof.Machine

/-- The run state (R33). HALTED is final. -/
inductive RunState where
  | running
  | halted
  deriving DecidableEq, Repr

/-- Why a step answers no next state. The engine raises no exception (R200), so there is one reason. -/
inductive Fault where
  /-- Raised by `step` alone, on a HALTED machine, which has no step (R33, R110). Safe: the hardware does not go on
  either. Log 4. -/
  | halted
  deriving DecidableEq, Repr

/-- What the model turns away. -/
inductive Refusal where
  /-- Raised by an arm of `exec` whose instruction has no meaning in the model; no arm is one. Safe: nothing is claimed
  of such an instruction. -/
  | notModelled (mnemonic : String)
  /-- Raised by `State.load` alone, for a PROGRAM of this length, which is no multiple of 4 or is over 65536 (R221).
  Safe: the spec refuses it too. -/
  | programLength (n : Nat)
  deriving DecidableEq, Repr

/-- The whole architectural state: the memory array, which holds every register (R20, R21), and the run state (R33).
Nothing else persists from one cycle to the next (R34, R35). -/
structure State where
  mem : Memory
  run : RunState
  deriving DecidableEq, Repr

/-- The machine after reset, with no PROGRAM: every byte 0x00, PC = START_ADDR, RUNNING (R221). The value of START_ADDR
and the absence of a program are the model's own choices (logs 1, 2). -/
def State.reset : State where
  mem := Memory.write16 [] pcAddr Config.startAddr
  run := .running

end Sys2Proof.Machine
end

