-- ==== Sys2Proof/Machine/Ops.lean ====
section
/-! DEFINITION. The named operations over memory and registers (00_scope.md R8 to R10). There is no operation that takes an
exception or returns from one: the machine has neither (60_exceptions.md R200 to R204). -/

namespace Sys2Proof.Machine

/-- M[a]. -/
def State.read (s : State) (a : Addr) : Byte := s.mem.read a

/-- M[a] <- v. -/
def State.write (s : State) (a : Addr) (v : Byte) : State := { s with mem := s.mem.write a v }

/-- x[i] (R9): the same byte as M[RegAddr(i)]. -/
def State.reg (s : State) (i : Nat) : Byte := s.read (regAddr i)

/-- x[i] <- v (R9). No register is hardwired (R24). -/
def State.setReg (s : State) (i : Nat) (v : Byte) : State := s.write (regAddr i) v

/-- x16[i] (R9), as MemRead(RegAddr(i), 2). -/
def State.reg16 (s : State) (i : Nat) : BitVec 16 := s.mem.read16 (regAddr i)

/-- pc (R10, R27). -/
def State.pc (s : State) : Addr := s.mem.read16 pcAddr

/-- pc <- target (R10). -/
def State.setPc (s : State) (a : Addr) : State := { s with mem := s.mem.write16 pcAddr a }

/-- SR (R10, R28). -/
def State.sr (s : State) : Byte := s.read srAddr

/-- ZERO (R23): 16 bits, ordinary storage (R24). -/
def State.zero (s : State) : BitVec 16 := s.reg16 Config.idxZero

/-- XX (R23, R25): 16 bits of scratch. -/
def State.xx (s : State) : BitVec 16 := s.reg16 Config.idxXx

/-- SP (R23, R26): one byte, with no implicit use. -/
def State.sp (s : State) : Byte := s.reg Config.idxSp

/-- SR <- v. -/
def State.setSr (s : State) (v : Byte) : State := s.write srAddr v

/-- What the renderer can read of a state (R58): the bytes of SCREEN_REGION, which nothing else reads. -/
def State.screen (s : State) : List Byte := s.mem.screenView Config.screenRegion

/-- The fetch: the word of the four bytes at pc (R111). No alignment is asked (R54). -/
def State.fetch (s : State) : Word := s.mem.read32 s.pc

/-- The PC advance of R112, under the parameter AUTO_ADVANCE: false gives the source's option (a). -/
def State.advancePcWith (auto : Bool) (s : State) : State :=
  if auto then s.setPc (s.pc + 4) else s

/-- The PC advance of R112. -/
def State.advancePc (s : State) : State := s.advancePcWith Config.autoAdvance

/-- The transition to HALTED (R110): no other change. -/
def State.halt (s : State) : State := { s with run := .halted }

/-- Reset(START_ADDR, PROGRAM) of R221: zero fill, the program from START_ADDR upward, PC written last, RUNNING. -/
def State.load (start : Addr) (program : List Byte) : Host.Outcome State Fault Refusal :=
  if program.length % 4 = 0 ∧ program.length ≤ 65536 then
    .next { mem := (Memory.writeBytes [] start program).write16 pcAddr start, run := .running }
  else .refused (.programLength program.length)

/-- The four bytes of a fetch at `a` hold no byte of PC, so that storing an instruction there does not move PC. -/
def fetchClearOfPc (a : Addr) : Bool :=
  (List.range 4).all fun k => a + BitVec.ofNat 16 k != pcAddr && a + BitVec.ofNat 16 k != pcAddr + 1

/-- A state whose next step fetches at an address that a word can be stored at: the state itself where that holds, else
the machine set RUNNING at START_ADDR. Log 8. -/
def State.readyToFetch (s : State) : State :=
  if s.run = .running ∧ s.pc ≠ 0 ∧ fetchClearOfPc s.pc = true then s
  else { s.setPc Config.startAddr with run := .running }

/-- The bytes placed where the next step fetches: an outside load (R221, log 2). -/
def State.placeAtPc (s : State) (bytes : List Byte) : State :=
  { s with mem := s.mem.writeBytes s.pc bytes }

end Sys2Proof.Machine
end

