-- ==== Sys2Proof/Syntax.lean ====
section
/-! DEFINITION. The decoded instruction (30_encoding.md R70 to R80) and the raw record the toolchain's encoder is
given (R74). -/

namespace Sys2Proof

/-- The size field (R75): one byte turn, or two. -/
inductive Size where
  | byte
  | word
  deriving DecidableEq, Repr

/-- The condition field (R76). -/
inductive Cond where
  | always
  | gt
  | lt
  | eq
  deriving DecidableEq, Repr

/-- The addressing mode (R77); the name reads source_destination. -/
inductive Mode where
  | regReg
  | regMem
  | memReg
  | immReg
  deriving DecidableEq, Repr

/-- The operation field (R80). -/
inductive Op where
  | mov
  | reserved
  | adc
  | sbc
  | and
  | or
  | xor
  | rot
  deriving DecidableEq, Repr

/-- The five fields every operation has beside its opcode (R70). The don't-care bits of R81 are kept, so that a word and
its decoded form carry the same information (log 12). -/
structure Fields where
  size      : Size
  cond      : Cond
  mode      : Mode
  reg       : BitVec 8
  operand16 : BitVec 16
  deriving DecidableEq, Repr

/-- One constructor per row of the opcode table (R80). -/
inductive Instr where
  /-- MOV: copy Q to P (R160). -/
  | mov (f : Fields)
  /-- The reserved operation, op = 1: executes as MOV (R161). -/
  | reserved (f : Fields)
  /-- ADC: add Q to P, no carry in (R170). -/
  | adc (f : Fields)
  /-- SBC: subtract Q from P, no borrow in (R171). -/
  | sbc (f : Fields)
  /-- AND (R180). -/
  | and (f : Fields)
  /-- OR (R181). -/
  | or (f : Fields)
  /-- XOR (R182). -/
  | xor (f : Fields)
  /-- ROT: rotate P left by Q mod 8 (R190). -/
  | rot (f : Fields)
  deriving DecidableEq, Repr

/-- The operation of an instruction. -/
def Instr.op : Instr → Op
  | .mov _ => .mov
  | .reserved _ => .reserved
  | .adc _ => .adc
  | .sbc _ => .sbc
  | .and _ => .and
  | .or _ => .or
  | .xor _ => .xor
  | .rot _ => .rot

/-- The fields of an instruction beside its operation. -/
def Instr.fields : Instr → Fields
  | .mov f => f
  | .reserved f => f
  | .adc f => f
  | .sbc f => f
  | .and f => f
  | .or f => f
  | .xor f => f
  | .rot f => f

/-- The instruction with a given operation and fields. -/
def Instr.ofOp : Op → Fields → Instr
  | .mov, f => .mov f
  | .reserved, f => .reserved f
  | .adc, f => .adc f
  | .sbc, f => .sbc f
  | .and, f => .and f
  | .or, f => .or f
  | .xor, f => .xor f
  | .rot, f => .rot f

/-- The six-field record as the encoder is given it, before any width is checked (R74). -/
structure Record where
  op        : Nat
  size      : Nat
  cond      : Nat
  mode      : Nat
  reg       : Nat
  operand16 : Nat
  deriving DecidableEq, Repr

/-- A field of the record, named in an OutOfRange failure (R74). -/
inductive FieldName where
  | op
  | size
  | cond
  | mode
  | reg
  | operand16
  deriving DecidableEq, Repr

end Sys2Proof
end

