-- ==== Sys2Proof/Machine/Flags.lean ====
section
/-! DEFINITION. The condition evaluator and the flag update (40_cycle.md R113, R114, R119 to R123), over the ALU's
outputs (R117). -/

namespace Sys2Proof.Machine

/-- The outputs of the ALU for one turn (R117): result byte, carry or borrow, signed overflow. -/
structure AluOut where
  r : Byte
  c : Bool
  v : Bool
  deriving DecidableEq, Repr

/-- The four flags (R28). -/
structure Flags where
  z : Bool
  n : Bool
  v : Bool
  c : Bool
  deriving DecidableEq, Repr

/-- SR.C (R10). -/
def srC (sr : Byte) : Bool := sr.getLsbD 0

/-- SR.V (R10). -/
def srV (sr : Byte) : Bool := sr.getLsbD 1

/-- SR.N (R10). -/
def srN (sr : Byte) : Bool := sr.getLsbD 2

/-- SR.Z (R10). -/
def srZ (sr : Byte) : Bool := sr.getLsbD 3

/-- CondPass (R114) under the parameter GT_STRICT: false gives the reading of the source's step 2. -/
def condPassWith (gtStrict : Bool) (c : Cond) (sr : Byte) : Bool :=
  match c with
  | .always => true
  | .gt => !srN sr && (!gtStrict || !srZ sr)
  | .lt => srN sr
  | .eq => srZ sr

/-- CondPass (R114): the gate of the whole instruction. -/
def condPass (c : Cond) (sr : Byte) : Bool := condPassWith Config.gtStrict c sr

/-- The flags of an instruction (R120): `last` is the last turn's output, `allZero` whether every result byte is 0. -/
def flagsOf (allZero : Bool) (last : AluOut) : Flags where
  z := allZero
  n := last.r.getLsbD 7
  v := last.v
  c := last.c

/-- One flag as a byte, before it is shifted to its place. -/
def bit (b : Bool) : Byte := if b then 1 else 0

/-- SR after the flag write (R122): bits 7:4 kept, bits 3:0 the flags. -/
def withFlags (sr : Byte) (fl : Flags) : Byte :=
  (sr &&& 0xF0) ||| bit fl.z <<< 3 ||| bit fl.n <<< 2 ||| bit fl.v <<< 1 ||| bit fl.c

/-- The flag write (R122): SR is read after the turns, so an instruction that wrote SR keeps bits 7:4 of what it wrote
(R123). -/
def State.writeFlags (s : State) (fl : Flags) : State :=
  s.setSr (withFlags s.sr fl)

end Sys2Proof.Machine
end

