-- ==== Sys2Proof/WellFormed.lean ====
section
/-! DEFINITION. Which records the encoder accepts (30_encoding.md R74), and which instructions the assembler writes
(R81, R92). Every decoded instruction is well formed: the widths are in its type (R73). -/

namespace Sys2Proof

/-- The first field whose value exceeds its bit width, if any (R74, widths of R70). -/
def Record.firstOutOfRange (r : Record) : Option FieldName :=
  if 8 ≤ r.op then some .op
  else if 2 ≤ r.size then some .size
  else if 4 ≤ r.cond then some .cond
  else if 4 ≤ r.mode then some .mode
  else if 256 ≤ r.reg then some .reg
  else if 65536 ≤ r.operand16 then some .operand16
  else none

/-- Every field fits its bit width: the records `Encode` accepts (R74). -/
def Record.WellFormed (r : Record) : Bool :=
  r.firstOutOfRange.isNone

/-- The don't-care bits are 0, as the assembler writes them (R81): lo[7:1] in REG_REG, hi in a byte-size IMM_REG. -/
def Fields.dontCareZero (f : Fields) : Bool :=
  match f.mode, f.size with
  | .regReg, _ => f.operand16.extractLsb' 1 7 == 0
  | .immReg, .byte => f.operand16.extractLsb' 8 8 == 0
  | _, _ => true

/-- The instructions the assembler can write: op 1 has no mnemonic (R92), and don't-care bits are 0 (R81). -/
def Instr.assemblable (i : Instr) : Bool :=
  i.op != .reserved && i.fields.dontCareZero

end Sys2Proof
end

