-- ==== Sys2Proof/Decode.lean ====
section
/-! DEFINITION. The instruction decoder and the encoder (30_encoding.md R70 to R82), and how a word lies in memory
(R50, R71). -/

namespace Sys2Proof

/-! ## Field codes (R75 to R80) -/

/-- The size of a size bit (R75). -/
def Size.ofCode (c : BitVec 1) : Size :=
  if c = 0 then .byte else .word

/-- The size bit of a size (R75). -/
def Size.code : Size → BitVec 1
  | .byte => 0
  | .word => 1

/-- The condition of a condition code (R76). -/
def Cond.ofCode (c : BitVec 2) : Cond :=
  if c = 0 then .always else if c = 1 then .gt else if c = 2 then .lt else .eq

/-- The code of a condition (R76). -/
def Cond.code : Cond → BitVec 2
  | .always => 0
  | .gt => 1
  | .lt => 2
  | .eq => 3

/-- The mode of a mode code (R77). -/
def Mode.ofCode (c : BitVec 2) : Mode :=
  if c = 0 then .regReg else if c = 1 then .regMem else if c = 2 then .memReg else .immReg

/-- The code of a mode (R77). -/
def Mode.code : Mode → BitVec 2
  | .regReg => 0
  | .regMem => 1
  | .memReg => 2
  | .immReg => 3

/-- The operation of an opcode (R80). -/
def Op.ofCode (c : BitVec 3) : Op :=
  if c = 0 then .mov
  else if c = 1 then .reserved
  else if c = 2 then .adc
  else if c = 3 then .sbc
  else if c = 4 then .and
  else if c = 5 then .or
  else if c = 6 then .xor
  else .rot

/-- The opcode of an operation (R80). -/
def Op.code : Op → BitVec 3
  | .mov => 0
  | .reserved => 1
  | .adc => 2
  | .sbc => 3
  | .and => 4
  | .or => 5
  | .xor => 6
  | .rot => 7

/-! ## The derived outputs of the decoder (R72) -/

/-- lo: the low byte of operand16, word bits [23:16] (R72). -/
def Fields.lo (f : Fields) : Byte := f.operand16.extractLsb' 0 8

/-- hi: the high byte of operand16, word bits [31:24] (R72). -/
def Fields.hi (f : Fields) : Byte := f.operand16.extractLsb' 8 8

/-- ind: word bit 16 in REG_REG mode, 0 in the others (R72, R79). -/
def Fields.ind (f : Fields) : Bool :=
  match f.mode with
  | .regReg => f.operand16.getLsbD 0
  | .regMem => false
  | .memReg => false
  | .immReg => false

/-- nturns: 1 + size (R72, R75). -/
def Fields.nturns (f : Fields) : Nat :=
  match f.size with
  | .byte => 1
  | .word => 2

/-! ## Decoder and encoder -/

/-- The decoder: total, a function of the word alone (R72, R73). -/
def decode (w : Word) : Instr :=
  Instr.ofOp (Op.ofCode (w.extractLsb' 0 3))
    { size := Size.ofCode (w.extractLsb' 3 1)
      cond := Cond.ofCode (w.extractLsb' 4 2)
      mode := Mode.ofCode (w.extractLsb' 6 2)
      reg := w.extractLsb' 8 8
      operand16 := w.extractLsb' 16 16 }

/-- The encoder: the six fields laid out as R70 draws them, operand16 in the upper bits. -/
def encode (i : Instr) : Word :=
  i.fields.operand16 ++ (i.fields.reg ++ (i.fields.mode.code ++ (i.fields.cond.code ++
    (i.fields.size.code ++ i.op.code))))

/-- The four bytes of a word, lowest address first (R50, R71). -/
def wordBytes (w : Word) : List Byte :=
  [w.extractLsb' 0 8, w.extractLsb' 8 8, w.extractLsb' 16 8, w.extractLsb' 24 8]

/-- Why bytes hold no instruction: the hardware has no such case, a file may end early (R82). -/
inductive DecodeError where
  /-- Fewer than four bytes are left. -/
  | truncated
  deriving DecidableEq, Repr

/-- The instruction at the front of a byte list, with the bytes after it. Every four bytes decode (R73, R82). -/
def decodeBytes : List Byte → Except DecodeError (Instr × List Byte)
  | b0 :: b1 :: b2 :: b3 :: rest => .ok (decode (b3 ++ (b2 ++ (b1 ++ b0))), rest)
  | _ => .error .truncated

/-- The six-field record of an instruction, each field as a number. -/
def Instr.toRecord (i : Instr) : Record where
  op := i.op.code.toNat
  size := i.fields.size.code.toNat
  cond := i.fields.cond.code.toNat
  mode := i.fields.mode.code.toNat
  reg := i.fields.reg.toNat
  operand16 := i.fields.operand16.toNat

/-- The toolchain's `Encode` (R74): the formula of the rule, or OutOfRange with the field that does not fit. -/
def encodeRecord (r : Record) : Except FieldName Word :=
  match r.firstOutOfRange with
  | some n => .error n
  | none => .ok (BitVec.ofNat 32 (r.op ||| r.size <<< 3 ||| r.cond <<< 4 ||| r.mode <<< 6 ||| r.reg <<< 8
      ||| r.operand16 <<< 16))

/-- The instruction the decoder reads from a table row's bits `w` (bit 0 the least significant bit of the word, `nbits`
of them given, the rest 0), laid out in memory order first. -/
def decodeTableWord (nbits w : Nat) : Option Instr :=
  match decodeBytes (wordBytes (BitVec.ofNat 32 (w % 2 ^ nbits))) with
  | .ok (i, _) => some i
  | .error _ => none

end Sys2Proof
end

