-- ==== Sys2Proof/Machine/Operands.lean ====
section
/-! DEFINITION. The operand resolver (41_operand_resolver.md R140 to R149): the address of P, the address or value of
Q, for a turn. It writes nothing and never faults. -/

namespace Sys2Proof.Machine

/-- PAddr(d, t) (R141): the byte a turn reads and writes. -/
def pAddr (f : Fields) (t : Nat) : Addr :=
  match f.mode with
  | .regMem => f.operand16 + BitVec.ofNat 16 t
  | .regReg => regAddr (f.reg.toNat + t)
  | .memReg => regAddr (f.reg.toNat + t)
  | .immReg => regAddr (f.reg.toNat + t)

/-- The indirect pointer (R143): 16 bits, little-endian, in registers hi and hi+1, read in the state of the turn. -/
def pointer (f : Fields) (s : State) : Addr :=
  s.reg16 f.hi.toNat

/-- QAddr(d, t): where Q is read in the modes that read it from memory (R142 to R145); none for an immediate (R146). -/
def qAddr (f : Fields) (t : Nat) (s : State) : Option Addr :=
  match f.mode with
  | .regReg => some (if f.ind then pointer f s + BitVec.ofNat 16 t else regAddr (f.hi.toNat + t))
  | .regMem => some (regAddr (f.reg.toNat + t))
  | .memReg => some (f.operand16 + BitVec.ofNat 16 t)
  | .immReg => none

/-- The immediate byte of a turn (R146): lo in turn 0, hi in turn 1. -/
def immByte (f : Fields) (t : Nat) : Byte :=
  if t = 0 then f.lo else f.hi

/-- QValue(d, t) (R142 to R146), resolved in the state the turn starts in (R147). -/
def qValue (f : Fields) (t : Nat) (s : State) : Byte :=
  match qAddr f t s with
  | some a => s.read a
  | none => immByte f t

end Sys2Proof.Machine
end

