-- ==== Sys2Proof/Machine/Turns.lean ====
section
/-! DEFINITION. The turns of an instruction and its gate (40_cycle.md R115, R116, R118): what every operation shares,
its ALU function being an argument. -/

namespace Sys2Proof.Machine

/-- One turn (R116): resolve and read P, resolve and read Q, compute, write P, in that order (R147). -/
def turn (alu : Byte → Byte → AluOut) (f : Fields) (t : Nat) (s : State) : State × AluOut :=
  let o := alu (s.read (pAddr f t)) (qValue f t s)
  (s.write (pAddr f t) o.r, o)

/-- All turns of an instruction and the flags they give (R116, R120). Nothing but memory passes from turn 0 to turn 1
(R118). -/
def turns (alu : Byte → Byte → AluOut) (f : Fields) (s : State) : State × Flags :=
  match f.size with
  | .byte =>
    let a := turn alu f 0 s
    (a.1, flagsOf (a.2.r == 0) a.2)
  | .word =>
    let a := turn alu f 0 s
    let b := turn alu f 1 a.1
    (b.1, flagsOf (a.2.r == 0 && b.2.r == 0) b.2)

/-- The turns, then the flag write (R122). -/
def runTurns (alu : Byte → Byte → AluOut) (f : Fields) (s : State) : State :=
  (turns alu f s).1.writeFlags (turns alu f s).2

/-- The gate (R114, R115): the instruction runs whole, or leaves the state as it is. `s` is the state after the PC
advance (R112, log 7). -/
def execGated (alu : Byte → Byte → AluOut) (f : Fields) (s : State) : Host.Outcome State Fault Refusal :=
  if condPass f.cond s.sr then .next (runTurns alu f s) else .next s

end Sys2Proof.Machine
end

