-- ==== Sys2Proof/Machine/Arithmetic.lean ====
section
/-! DEFINITION. ADC and SBC (43_arithmetic.md R170 to R172). Neither has a carry input (conflict C13). -/

namespace Sys2Proof.Machine

/-- ADC's ALU function (R170): the exact 9-bit sum, its low byte, its bit 8, and signed overflow. -/
def aluAdc (p q : Byte) : AluOut :=
  let sum : BitVec 9 := p.setWidth 9 + q.setWidth 9
  let r : Byte := sum.setWidth 8
  { r := r
    c := sum.getLsbD 8
    v := p.getLsbD 7 == q.getLsbD 7 && r.getLsbD 7 != p.getLsbD 7 }

/-- ADC (R170): add Q to P. -/
def execAdc (f : Fields) (s : State) : Host.Outcome State Fault Refusal :=
  execGated aluAdc f s

/-- SBC's ALU function (R171): the difference, the borrow, and signed overflow. -/
def aluSbc (p q : Byte) : AluOut :=
  let r : Byte := p - q
  { r := r
    c := p.ult q
    v := p.getLsbD 7 != q.getLsbD 7 && r.getLsbD 7 != p.getLsbD 7 }

/-- SBC (R171): subtract Q from P. -/
def execSbc (f : Fields) (s : State) : Host.Outcome State Fault Refusal :=
  execGated aluSbc f s

end Sys2Proof.Machine
end

