-- ==== Sys2Proof/Machine/Logical.lean ====
section
/-! DEFINITION. AND, OR and XOR (44_logical.md R180 to R182). -/

namespace Sys2Proof.Machine

/-- AND's ALU function (R180). -/
def aluAnd (p q : Byte) : AluOut := { r := p &&& q, c := false, v := false }

/-- AND (R180): bitwise AND of P and Q into P. -/
def execAnd (f : Fields) (s : State) : Host.Outcome State Fault Refusal :=
  execGated aluAnd f s

/-- OR's ALU function (R181). -/
def aluOr (p q : Byte) : AluOut := { r := p ||| q, c := false, v := false }

/-- OR (R181): bitwise inclusive OR of P and Q into P. -/
def execOr (f : Fields) (s : State) : Host.Outcome State Fault Refusal :=
  execGated aluOr f s

/-- XOR's ALU function (R182). -/
def aluXor (p q : Byte) : AluOut := { r := p ^^^ q, c := false, v := false }

/-- XOR (R182): bitwise exclusive OR of P and Q into P. -/
def execXor (f : Fields) (s : State) : Host.Outcome State Fault Refusal :=
  execGated aluXor f s

end Sys2Proof.Machine
end

