-- ==== Sys2Proof/Machine/Move.lean ====
section
/-! DEFINITION. MOV and the reserved operation (42_move.md R160, R161). -/

namespace Sys2Proof.Machine

/-- MOV's ALU function (R160): Q, no carry, no overflow. -/
def aluMov (_p q : Byte) : AluOut := { r := q, c := false, v := false }

/-- MOV (R160): copy Q to P. -/
def execMov (f : Fields) (s : State) : Host.Outcome State Fault Refusal :=
  execGated aluMov f s

/-- The ALU function of op 1 (R161): as MOV's. -/
def aluReserved (_p q : Byte) : AluOut := { r := q, c := false, v := false }

/-- The reserved operation (R161; conflict C3): executes as MOV. -/
def execReserved (f : Fields) (s : State) : Host.Outcome State Fault Refusal :=
  execGated aluReserved f s

end Sys2Proof.Machine
end

