-- ==== Sys2Proof/Machine/Rotate.lean ====
section
/-! DEFINITION. ROT (45_rotate.md R190). The policy is the spec's own decision D17 (log 6). -/

namespace Sys2Proof.Machine

/-- rotl8(v, n) (R11), for n in 0 .. 7. -/
def rotl8 (v : Byte) (n : Nat) : Byte := v <<< n ||| v >>> (8 - n)

/-- ROT's ALU function (R190): P rotated left by the low three bits of Q. -/
def aluRot (p q : Byte) : AluOut :=
  { r := rotl8 p (q.extractLsb' 0 3).toNat, c := false, v := false }

/-- ROT (R190). -/
def execRot (f : Fields) (s : State) : Host.Outcome State Fault Refusal :=
  execGated aluRot f s

end Sys2Proof.Machine
end

