-- ==== Sys2Proof/Machine/Step.lean ====
section
/-! DEFINITION. One step of the engine (40_cycle.md R124), and how a word comes to be the one it fetches. -/

namespace Sys2Proof.Machine

/-- One cycle (R110 to R112, R124): the halt check, the fetch, the PC advance, then the decoded instruction, whose gate,
turns and flag write are `exec`'s. A HALTED machine has no step (log 4). -/
def step (s : State) : Host.Outcome State Fault Refusal :=
  match s.run with
  | .halted => .fault .halted
  | .running => if s.pc = 0 then .next s.halt else exec (decode s.fetch) s.advancePc

/-- The state with the word of a table row's bits stored where the next step fetches (logs 2, 8). -/
def State.withFetchWord (s : State) (nbits w : Nat) : State :=
  s.readyToFetch.placeAtPc (wordBytes (BitVec.ofNat 32 (w % 2 ^ nbits)))

end Sys2Proof.Machine
end

