-- ==== Sys2Proof/Machine/Assembler.lean ====
section
/-! DEFINITION. The assembler and the listing printer (30_encoding.md R90 to R104): the toolchain's text, as functions on
lists of characters. It is software outside the CORE (00_scope.md R3); no step of the machine calls it. -/

namespace Sys2Proof.Machine

/-- What a SyntaxError carries (R103, conflict C12): the text the spec words, or the name UnsupportedMode. -/
inductive SyntaxName where
  /-- The diagnostic text of a statement outside the grammar (R91, R92, R94, R96). -/
  | text (t : String)
  /-- UnsupportedMode: an addressing-mode combination the encoding cannot represent (R95, R97, R99). -/
  | unsupportedMode
  deriving DecidableEq, Repr

/-- The two kinds of failure of an assembly run (R103, conflict C12). -/
inductive AsmError where
  /-- SyntaxError, UnsupportedMode being one by name. -/
  | syntaxError (name : SyntaxName)
  /-- OutOfRange: a value that does not fit (R74, R94). -/
  | outOfRange
  deriving DecidableEq, Repr

/-- The construct of a statement that a failure is about (R103). -/
inductive Construct where
  | condition
  | mnemonic
  | firstOperand
  | separator
  | secondOperand
  /-- The two operands together: each is well formed, no mode has the pair (R97). -/
  | operandPair
  /-- A field of the record, as the encoder names it (R74). -/
  | field (n : FieldName)
  deriving DecidableEq, Repr

/-- The failure of one statement: its kind, and the construct that offends. -/
structure Failure where
  error     : AsmError
  construct : Construct
  deriving DecidableEq, Repr

/-- The diagnostic that ends an assembly run, with no output (R103): the number of the statement, from 0 as in R101, and
its failure. That a construct is identified in this form is the model's choice (log 10). -/
structure Diagnostic where
  statement : Nat
  failure   : Failure
  deriving DecidableEq, Repr

/-- A part of the parse whose failure is about the construct `c`. -/
def blame {α : Type} (c : Construct) (r : Except AsmError α) : Except Failure α :=
  r.mapError fun e => { error := e, construct := c }

/-- A SyntaxError with the text the spec words. -/
def syntaxError (t : String) : AsmError := .syntaxError (.text t)

/-- The SyntaxError that carries the name UnsupportedMode (R103). -/
def unsupportedMode : AsmError := .syntaxError .unsupportedMode

/-! ## Tokens -/

/-- White space and new lines between tokens (R90). -/
def isSpace (c : Char) : Bool :=
  c == ' ' || c == '\t' || c == '\r' || c == '\n'

/-- `ws*` of the grammar (R90). -/
def skipSpace (cs : List Char) : List Char :=
  cs.dropWhile isSpace

/-- A letter in its capital form: codes, mnemonics and suffixes are case-insensitive (R91 to R93). -/
def capital (c : Char) : Char :=
  if 'a'.toNat ≤ c.toNat ∧ c.toNat ≤ 'z'.toNat then Char.ofNat (c.toNat - 32) else c

/-- The value of a hexadecimal digit, in either case (R94). -/
def hexValue (c : Char) : Option Nat :=
  let n := (capital c).toNat
  if '0'.toNat ≤ n ∧ n ≤ '9'.toNat then some (n - '0'.toNat)
  else if 'A'.toNat ≤ n ∧ n ≤ 'F'.toNat then some (n - 'A'.toNat + 10)
  else none

/-- The hexadecimal digits at the front, taken greedily (R94), and the text after them. -/
def takeHex : List Char → List Nat × List Char
  | [] => ([], [])
  | c :: cs =>
    match hexValue c with
    | some d => (d :: (takeHex cs).1, (takeHex cs).2)
    | none => ([], c :: cs)

/-- A number literal: how many digits it was written with, and its value (R94). -/
structure Number where
  digits : Nat
  value  : Nat
  deriving DecidableEq, Repr

/-- Up to two digits mean a register index, more a memory address (R94). -/
def Number.isRegister (n : Number) : Bool := decide (n.digits ≤ 2)

/-- The value of a digit list, most significant digit first. -/
def digitsValue (ds : List Nat) : Nat :=
  ds.foldl (fun acc d => acc * 16 + d) 0

/-- A number literal (R94). -/
def parseNumber : List Char → Except AsmError (Number × List Char)
  | [] => .error (syntaxError "expected '$'")
  | c :: cs =>
    if c = '$' then
      match takeHex cs with
      | ([], _) => .error (syntaxError "expected hex digit")
      | (d :: ds, rest) =>
        if 65535 < digitsValue (d :: ds) then .error .outOfRange
        else .ok ({ digits := ds.length + 1, value := digitsValue (d :: ds) }, rest)
    else .error (syntaxError "expected '$'")

/-! ## The parts of a statement -/

/-- The condition of a two-letter code (R91). -/
def condOfLetters (a b : Char) : Option Cond :=
  match capital a, capital b with
  | 'A', 'L' => some .always
  | 'G', 'T' => some .gt
  | 'L', 'T' => some .lt
  | 'E', 'Q' => some .eq
  | _, _ => none

/-- The optional condition code and the white space after it (R90, R91). DESIGN CHOICE (log 10): a `?` that is not followed
by two letters, which R91 does not speak of, is a bad condition too. -/
def parseCond : List Char → Except AsmError (Cond × List Char)
  | '?' :: a :: b :: cs =>
    match condOfLetters a b with
    | some c => .ok (c, skipSpace cs)
    | none => .error (syntaxError "bad condition")
  | '?' :: _ => .error (syntaxError "bad condition")
  | cs => .ok (.always, cs)

/-- The operation of a three-letter mnemonic (R92). Operation 1 has none. -/
def opOfLetters (a b c : Char) : Option Op :=
  match capital a, capital b, capital c with
  | 'M', 'O', 'V' => some .mov
  | 'A', 'D', 'C' => some .adc
  | 'S', 'B', 'C' => some .sbc
  | 'A', 'N', 'D' => some .and
  | 'X', 'O', 'R' => some .xor
  | 'R', 'O', 'T' => some .rot
  | _, _, _ => none

/-- The mnemonic (R92): two letters are read, and a third unless they spell OR. -/
def parseMnemonic : List Char → Except AsmError (Op × List Char)
  | a :: b :: cs =>
    if capital a = 'O' ∧ capital b = 'R' then .ok (.or, cs)
    else
      match cs with
      | c :: rest =>
        match opOfLetters a b c with
        | some op => .ok (op, rest)
        | none => .error (syntaxError "bad mnemonic")
      | [] => .error (syntaxError "bad mnemonic")
  | _ => .error (syntaxError "bad mnemonic")

/-- The size suffix (R93); any other next character is not consumed. -/
def parseSize : List Char → Size × List Char
  | [] => (.byte, [])
  | c :: cs =>
    if capital c = 'W' then (.word, cs)
    else if capital c = 'B' then (.byte, cs)
    else (.byte, c :: cs)

/-- The first operand (R95): a number; an immediate or indirect form there has no mode. -/
def parseFirst : List Char → Except AsmError (Number × List Char)
  | [] => parseNumber []
  | c :: cs => if c = '#' ∨ c = '*' then .error unsupportedMode else parseNumber (c :: cs)

/-- The comma (R96). -/
def parseComma : List Char → Except AsmError (List Char)
  | [] => .error (syntaxError "expected ','")
  | c :: cs => if c = ',' then .ok cs else .error (syntaxError "expected ','")

/-- The forms of the second operand (R90, R97). -/
inductive Second where
  | imm (n : Number)
  | ind (n : Number)
  | bare (n : Number)
  deriving DecidableEq, Repr

/-- The second operand (R97, R99): the number of an indirect one has at most two digits. DESIGN CHOICE (log 10): an
indirect number that is also above 0xFFFF, such as `*$10000`, is reported as OutOfRange (R94), before its digits are
counted (R99); the spec gives neither precedence. -/
def parseSecond : List Char → Except AsmError (Second × List Char)
  | [] => (parseNumber []).map fun (n, rest) => (.bare n, rest)
  | c :: cs =>
    if c = '#' then (parseNumber cs).map fun (n, rest) => (.imm n, rest)
    else if c = '*' then
      match parseNumber cs with
      | .error e => .error e
      | .ok (n, rest) => if n.isRegister then .ok (.ind n, rest) else .error unsupportedMode
    else (parseNumber (c :: cs)).map fun (n, rest) => (.bare n, rest)

/-! ## Mode resolution and encoding -/

/-- The record of a parsed statement: the mode table of R97 and the forced size of R98. Don't-care bits are 0 (R100). -/
def resolve (op : Op) (size : Size) (cond : Cond) (first : Number) (second : Second) : Except AsmError Record :=
  let record (size : Size) (mode : Mode) (reg operand16 : Nat) : Record :=
    { op := op.code.toNat
      size := size.code.toNat
      cond := cond.code.toNat
      mode := mode.code.toNat
      reg := reg
      operand16 := operand16 }
  match first.isRegister, second with
  | true, .imm n => .ok (record (if 2 < n.digits then .word else size) .immReg first.value n.value)
  | true, .ind n => .ok (record size .regReg first.value (n.value * 256 + 1))
  | true, .bare n =>
    if n.isRegister then .ok (record size .regReg first.value (n.value * 256))
    else .ok (record size .memReg first.value n.value)
  | false, .bare n =>
    if n.isRegister then .ok (record size .regMem n.value first.value) else .error unsupportedMode
  | false, .imm _ => .error unsupportedMode
  | false, .ind _ => .error unsupportedMode

/-- One statement, from its first character on (R90), each failure with the construct it is about (R103). -/
def parseStatement (cs : List Char) : Except Failure (Record × List Char) := do
  let (cond, cs) ← blame .condition (parseCond cs)
  let (op, cs) ← blame .mnemonic (parseMnemonic cs)
  let (size, cs) := parseSize cs
  let (first, cs) ← blame .firstOperand (parseFirst (skipSpace cs))
  let cs ← blame .separator (parseComma (skipSpace cs))
  let (second, cs) ← blame .secondOperand (parseSecond (skipSpace cs))
  let record ← blame .operandPair (resolve op size cond first second)
  return (record, cs)

/-- The word of a record (R100), an OutOfRange of the encoder being about the field it names (R74, R103). -/
def encodeParsed (r : Record) : Except Failure Word :=
  (encodeRecord r).mapError fun n => { error := .outOfRange, construct := .field n }

/-- One statement to its four bytes (R100, R101), and the text after it. -/
def assembleStatement (cs : List Char) : Except Failure (List Byte × List Char) := do
  let (record, cs) ← parseStatement cs
  let w ← encodeParsed record
  return (wordBytes w, cs)

/-- The driver (R101), from statement number `k` on: statements until only white space remains, four bytes each, none of
them kept if one fails (R103). Every statement takes a character or more, so `fuel` above the length of the text never runs
out. -/
def assembleWith : Nat → Nat → List Char → Except Diagnostic (List Byte)
  | 0, k, _ => .error { statement := k, failure := { error := syntaxError "out of fuel", construct := .mnemonic } }
  | fuel + 1, k, cs =>
    match skipSpace cs with
    | [] => .ok []
    | c :: rest =>
      match assembleStatement (c :: rest) with
      | .error e => .error { statement := k, failure := e }
      | .ok (bytes, after) => (assembleWith fuel (k + 1) after).map (bytes ++ ·)

/-- The assembler: the text of a program to its bytes (R101), or the diagnostic of its first offending construct (R103). -/
def assemble (cs : List Char) : Except Diagnostic (List Byte) :=
  assembleWith (cs.length + 1) 0 cs

/-! ## The listing printer (R104) -/

/-- The character of a hexadecimal digit. -/
def hexChar (n : Nat) : Char :=
  if n < 10 then Char.ofNat ('0'.toNat + n) else Char.ofNat ('A'.toNat + (n - 10))

/-- `n` as so many hexadecimal digits, most significant first. -/
def hexDigits : Nat → Nat → List Char
  | 0, _ => []
  | k + 1, n => hexDigits k (n / 16) ++ [hexChar (n % 16)]

/-- The condition code before a mnemonic; ALWAYS has none (R104). -/
def listCond : Cond → List Char
  | .always => []
  | .gt => ['?', 'G', 'T', ' ']
  | .lt => ['?', 'L', 'T', ' ']
  | .eq => ['?', 'E', 'Q', ' ']

/-- The mnemonic of an operation; op 1 has none (R92). -/
def listMnemonic : Op → List Char
  | .mov => ['M', 'O', 'V']
  | .reserved => []
  | .adc => ['A', 'D', 'C']
  | .sbc => ['S', 'B', 'C']
  | .and => ['A', 'N', 'D']
  | .or => ['O', 'R']
  | .xor => ['X', 'O', 'R']
  | .rot => ['R', 'O', 'T']

/-- The size suffix: `W` when size is 1 (R104). -/
def listSize : Size → List Char
  | .byte => []
  | .word => ['W']

/-- A number literal of so many digits. -/
def listNumber (digits n : Nat) : List Char :=
  '$' :: hexDigits digits n

/-- The operands, in the order of R97, in the spelling of R104. -/
def listOperands (f : Fields) : List Char :=
  match f.mode with
  | .regReg =>
    listNumber 2 f.reg.toNat ++ ([',', ' '] ++ ((if f.ind then ['*'] else []) ++ listNumber 2 f.hi.toNat))
  | .regMem => listNumber 4 f.operand16.toNat ++ ([',', ' '] ++ listNumber 2 f.reg.toNat)
  | .memReg => listNumber 2 f.reg.toNat ++ ([',', ' '] ++ listNumber 4 f.operand16.toNat)
  | .immReg =>
    listNumber 2 f.reg.toNat ++ ([',', ' ', '#'] ++
      (match f.size with
        | .byte => listNumber 2 f.lo.toNat
        | .word => listNumber 4 f.operand16.toNat))

/-- The canonical listing of an instruction (R104); a word with op 1 prints as `.word $XXXXXXXX`. -/
def listing (i : Instr) : List Char :=
  match i.op with
  | .reserved => ['.', 'w', 'o', 'r', 'd', ' '] ++ listNumber 8 (encode i).toNat
  | op => listCond i.fields.cond ++ (listMnemonic op ++ (listSize i.fields.size ++ (' ' :: listOperands i.fields)))

end Sys2Proof.Machine
end

