-- ==== Sys2Proof/Machine/Run.lean ====
section
/-! DEFINITION. The end of a run (40_cycle.md R127): its result is the memory array when the machine is HALTED. -/

namespace Sys2Proof.Machine

/-- The result of a run of at most `k` steps, if it is HALTED by then (R127). -/
def runResult : Nat → State → Option Memory
  | 0, s => if s.run = .halted then some s.mem else none
  | k + 1, s =>
    if s.run = .halted then some s.mem
    else
      match step s with
      | .next s' => runResult k s'
      | .fault _ => none
      | .refused _ => none

end Sys2Proof.Machine
end

