-- ==== Sys2Proof/Machine/Trace.lean ====
section
/-! DEFINITION. The memory accesses a cycle makes, in their order (20_memory.md R55). It is a view of a cycle, computed
from the state it starts in, and no state of the machine. -/

namespace Sys2Proof.Machine

/-- The ALU as one function of the operation (R117). -/
def aluOf : Op → Byte → Byte → AluOut
  | .mov => aluMov
  | .reserved => aluReserved
  | .adc => aluAdc
  | .sbc => aluSbc
  | .and => aluAnd
  | .or => aluOr
  | .xor => aluXor
  | .rot => aluRot

/-- Whether an access reads or writes. -/
inductive AccessKind where
  | read
  | write
  deriving DecidableEq, Repr

/-- One access: `len` bytes from `addr` upward, addresses modulo 2^16 (R8). -/
structure Access where
  kind : AccessKind
  addr : Addr
  len  : Nat
  deriving DecidableEq, Repr

/-- The access touches the byte at `a`. -/
def Access.covers (x : Access) (a : Addr) : Bool :=
  decide ((a - x.addr).toNat < x.len)

/-- The accesses of one turn (R55): P read, pointer read where the indirect flag is set, Q read, P write. An immediate is
no access (R146; log 11). -/
def turnAccesses (f : Fields) (t : Nat) (s : State) : List Access :=
  [{ kind := .read, addr := pAddr f t, len := 1 }] ++
    ((if f.ind then [{ kind := .read, addr := regAddr f.hi.toNat, len := 2 }] else []) ++
      ((match qAddr f t s with
        | some a => [{ kind := .read, addr := a, len := 1 }]
        | none => []) ++
        [{ kind := .write, addr := pAddr f t, len := 1 }]))

/-- The accesses of all turns (R55, R116). -/
def turnsAccesses (alu : Byte → Byte → AluOut) (f : Fields) (s : State) : List Access :=
  match f.size with
  | .byte => turnAccesses f 0 s
  | .word => turnAccesses f 0 s ++ turnAccesses f 1 (turn alu f 0 s).1

/-- The accesses of an instruction after the PC advance (R55): the SR read of the gate, and, where it passes, the turns
and the flag update. -/
def instrAccesses (i : Instr) (s : State) : List Access :=
  { kind := .read, addr := srAddr, len := 1 } ::
    if condPass i.fields.cond s.sr then
      turnsAccesses (aluOf i.op) i.fields s ++
        [{ kind := .read, addr := srAddr, len := 1 }, { kind := .write, addr := srAddr, len := 1 }]
    else []

/-- The PC write of the advance (R112), where AUTO_ADVANCE is set. -/
def advanceAccesses : List Access :=
  if Config.autoAdvance then [{ kind := .write, addr := pcAddr, len := 2 }] else []

/-- The accesses of a cycle (R55): none on a HALTED machine, the PC read alone on a halting cycle (R110). -/
def cycleAccesses (s : State) : List Access :=
  match s.run with
  | .halted => []
  | .running =>
    { kind := .read, addr := pcAddr, len := 2 } ::
      if s.pc = 0 then []
      else
        { kind := .read, addr := s.pc, len := 4 } ::
          (advanceAccesses ++ instrAccesses (decode s.fetch) s.advancePc)

end Sys2Proof.Machine
end

