-- ==== Sys2Proof/Safety.lean ====
section
/-! DEFINITION. What counts as a safe run, and what an instruction changes, in the terms the statements use. -/

namespace Sys2Proof.Machine

/-- The states a machine passes through: `ReachedFrom s t` says that some number of steps lead from `s` to `t`. -/
inductive ReachedFrom (s : State) : State → Prop where
  | start : ReachedFrom s s
  | more {t u : State} : ReachedFrom s t → step t = .next u → ReachedFrom s u

/-- The run that starts in `s` ends, with `m` its result (R127). -/
def HaltsWith (s : State) (m : Memory) : Prop :=
  ∃ k, runResult k s = some m

/-- The only stop of a safe run is HALTED (R110, R127): every state it reaches steps on, or is halted. -/
def SafeFrom (s : State) : Prop :=
  ∀ t, ReachedFrom s t → (∃ u, step t = .next u) ∨ (t.run = .halted ∧ step t = .fault .halted)

/-- N and Z are not both set: no flag update sets both (the note to R114's table). -/
def nzExclusive (s : State) : Bool :=
  !(srN s.sr && srZ s.sr)

/-- `t` is `s` after a byte-size instruction wrote `r` to P with the flags `fl`: P holds `r`, SR has its low four bits
replaced, and every other byte is as it was (R116, R122). Where P is SR, its high four bits are those of `r` (R123). -/
def ByteEffect (f : Fields) (s t : State) (r : Byte) (fl : Flags) : Prop :=
  t.run = s.run ∧
  (∀ a, a ≠ pAddr f 0 → a ≠ srAddr → t.read a = s.read a) ∧
  (pAddr f 0 ≠ srAddr → t.read (pAddr f 0) = r ∧ t.sr = withFlags s.sr fl) ∧
  (pAddr f 0 = srAddr → t.sr = withFlags r fl)

/-- `t` is `s` after a word-size instruction wrote `r0` and `r1` to the two bytes of P with the flags `fl`. -/
def WordEffect (f : Fields) (s t : State) (r0 r1 : Byte) (fl : Flags) : Prop :=
  t.run = s.run ∧
  (∀ a, a ≠ pAddr f 0 → a ≠ pAddr f 1 → a ≠ srAddr → t.read a = s.read a) ∧
  (pAddr f 0 ≠ srAddr → t.read (pAddr f 0) = r0) ∧
  (pAddr f 1 ≠ srAddr → t.read (pAddr f 1) = r1) ∧
  (pAddr f 0 ≠ srAddr → pAddr f 1 ≠ srAddr → t.sr = withFlags s.sr fl) ∧
  (pAddr f 0 = srAddr → t.sr = withFlags r0 fl) ∧
  (pAddr f 1 = srAddr → t.sr = withFlags r1 fl)

/-- What an operation does, whatever its operands, in the terms of its rule: with its condition passed, `exec` answers a
next state, in which P holds `r p q` for the bytes p and q of P and Q, lane by lane (R116, R118), the flags are those of
R120 over `r`, `c` and `v`, and nothing else has changed. In a word's turn 1, Q is resolved in the state turn 0 leaves
(R147). -/
def RunsAs (i : Instr) (r : Byte → Byte → Byte) (c v : Byte → Byte → Bool) : Prop :=
  ∀ s : State, condPass i.fields.cond s.sr = true →
    ∃ t, exec i s = .next t ∧
      let f := i.fields
      let p0 := s.read (pAddr f 0)
      let q0 := qValue f 0 s
      let p1 := s.read (pAddr f 1)
      let q1 := qValue f 1 (s.write (pAddr f 0) (r p0 q0))
      (f.size = .byte →
        ByteEffect f s t (r p0 q0)
          { z := r p0 q0 == 0, n := (r p0 q0).getLsbD 7, v := v p0 q0, c := c p0 q0 }) ∧
      (f.size = .word →
        WordEffect f s t (r p0 q0) (r p1 q1)
          { z := r p0 q0 == 0 && r p1 q1 == 0, n := (r p1 q1).getLsbD 7, v := v p1 q1, c := c p1 q1 })

/-- The driver takes `n` statements off the front of a text, one after the other (R101): they give `bytes`, and leave the text
`rest`. -/
inductive AssemblesUpTo : List Char → Nat → List Byte → List Char → Prop where
  | none (cs : List Char) : AssemblesUpTo cs 0 [] cs
  | more {cs after rest : List Char} {n : Nat} {word bytes : List Byte} :
      skipSpace cs ≠ [] → assembleStatement (skipSpace cs) = .ok (word, after) → AssemblesUpTo after n bytes rest →
      AssemblesUpTo cs (n + 1) (word ++ bytes) rest

end Sys2Proof.Machine
end

