-- ==== Sys2Proof/Certificates/Slice0/Obligations.lean ====
section
/-! DEFINITION. The statements for the provers. Each docstring names the rule of spec/ it formalises. Where a rule carries
one of the spec's own decisions D1 to D31, the docstring names it (log 5). -/

open Sys2Proof Sys2Proof.Machine

/-! ## Encoding -/

/-- Decoding the encoding of any instruction gives it back: every one of the six fields, the don't-care bits among them,
survives (R74; the bit positions are the spec's decision D1). -/
def Obligations.DecodeAfterEncodeIsIdentity : Prop :=
  ∀ i : Instr, decode (encode i) = i

/-- Every word is the encoding of what it decodes to: no bit of a word is dropped (R74, R73). -/
def Obligations.EncodeAfterDecodeIsIdentity : Prop :=
  ∀ w : Word, encode (decode w) = w

/-- The toolchain's encoder (R74): it answers exactly where every field fits its width, with the word whose value is the
sum of the fields at their places, which decodes to the same six fields; elsewhere it fails and names a field that does not
fit. -/
def Obligations.EncoderAcceptsExactlyWhatFits : Prop :=
  ∀ r : Record,
    (r.op < 8 ∧ r.size < 2 ∧ r.cond < 4 ∧ r.mode < 4 ∧ r.reg < 256 ∧ r.operand16 < 65536 →
      ∃ w, encodeRecord r = .ok w ∧
        w.toNat = r.op + 8 * r.size + 16 * r.cond + 64 * r.mode + 256 * r.reg + 65536 * r.operand16 ∧
        (decode w).toRecord = r) ∧
    (∀ n, encodeRecord r = .error n →
      match n with
      | .op => 8 ≤ r.op
      | .size => 2 ≤ r.size
      | .cond => 4 ≤ r.cond
      | .mode => 4 ≤ r.mode
      | .reg => 256 ≤ r.reg
      | .operand16 => 65536 ≤ r.operand16) ∧
    (8 ≤ r.op ∨ 2 ≤ r.size ∨ 4 ≤ r.cond ∨ 4 ≤ r.mode ∨ 256 ≤ r.reg ∨ 65536 ≤ r.operand16 →
      ∃ n, encodeRecord r = .error n)

/-- The outputs of the decoder (R72), each as the rule's slice of the word, by arithmetic on the word's value: op, size,
cond, mode, reg, operand16, lo, hi, ind, nturns (positions: decision D1; codes: D2; ind: D3). -/
def Obligations.DecoderOutputsAreTheWordsSlices : Prop :=
  ∀ w : Word,
    let d := decode w
    d.op.code.toNat = w.toNat % 8 ∧
    d.fields.size.code.toNat = w.toNat / 8 % 2 ∧
    d.fields.cond.code.toNat = w.toNat / 16 % 4 ∧
    d.fields.mode.code.toNat = w.toNat / 64 % 4 ∧
    d.fields.reg.toNat = w.toNat / 256 % 256 ∧
    d.fields.operand16.toNat = w.toNat / 65536 ∧
    d.fields.lo.toNat = w.toNat / 65536 % 256 ∧
    d.fields.hi.toNat = w.toNat / 16777216 ∧
    d.fields.ind = (w.toNat / 64 % 4 == 0 && w.toNat / 65536 % 2 == 1) ∧
    d.fields.nturns = 1 + w.toNat / 8 % 2

/-- Words the spec writes out decode to the instructions they stand for, MOV in two forms and one for each other
operation: those of R105 (0x123402C8, 0x00100340, 0x02000112), of 95_test_vectors.md section 2.1 (0x000508C1, 0xFFFFFFFF) and
section 2.2 (0x0A00080D, 0x09000926), of R171 and 95_test_vectors.md section 1, row S8 (0x000F08C3), and of R180
(0x000F08C4). -/
def Obligations.SpecWordsDecode : Prop :=
  decode 0x123402C8 = .mov { size := .word, cond := .always, mode := .immReg, reg := 0x02, operand16 := 0x1234 } ∧
  decode 0x00100340 = .mov { size := .byte, cond := .always, mode := .regMem, reg := 0x03, operand16 := 0x0010 } ∧
  decode 0x000508C1 = .reserved { size := .byte, cond := .always, mode := .immReg, reg := 0x08, operand16 := 0x0005 } ∧
  decode 0x02000112 = .adc { size := .byte, cond := .gt, mode := .regReg, reg := 0x01, operand16 := 0x0200 } ∧
  decode 0x000F08C3 = .sbc { size := .byte, cond := .always, mode := .immReg, reg := 0x08, operand16 := 0x000F } ∧
  decode 0x000F08C4 = .and { size := .byte, cond := .always, mode := .immReg, reg := 0x08, operand16 := 0x000F } ∧
  decode 0x0A00080D = .or { size := .word, cond := .always, mode := .regReg, reg := 0x08, operand16 := 0x0A00 } ∧
  decode 0x09000926 = .xor { size := .byte, cond := .lt, mode := .regReg, reg := 0x09, operand16 := 0x0900 } ∧
  decode 0xFFFFFFFF = .rot { size := .word, cond := .eq, mode := .immReg, reg := 0xFF, operand16 := 0xFFFF }

/-- The bits the engine ignores change nothing (R79, R81): two instructions that differ only in lo[7:1] in REG_REG mode, or
only in hi in a byte-size IMM_REG, do the same in every state. -/
def Obligations.DontCareBitsChangeNothing : Prop :=
  ∀ (o : Op) (f g : Fields), f.size = g.size → f.cond = g.cond → f.mode = g.mode → f.reg = g.reg →
    (f.mode = .regReg ∧ f.hi = g.hi ∧ f.ind = g.ind ∨ f.mode = .immReg ∧ f.size = .byte ∧ f.lo = g.lo) →
    ∀ s, exec (Instr.ofOp o f) s = exec (Instr.ofOp o g) s

/-! ## The cycle -/

/-- A running machine whose PC is not 0 fetches the four bytes at PC, little-endian, each address modulo 2^16 (R111),
writes PC + 4 to PC (R112; AUTO_ADVANCE, decision D9), and runs the decoded instruction in that state, which differs from
the first in the two bytes of PC alone. With AUTO_ADVANCE false the advance is no write. -/
def Obligations.StepRunsTheDecodedInstruction : Prop :=
  ∀ s : State, s.run = .running → s.pc ≠ 0 →
    step s = exec (decode (s.read (s.pc + 3) ++ (s.read (s.pc + 2) ++ (s.read (s.pc + 1) ++ s.read s.pc))))
      s.advancePc ∧
    s.advancePc.run = .running ∧ s.advancePc.pc = s.pc + 4 ∧
    (∀ a, a ≠ 0xFF02 → a ≠ 0xFF03 → s.advancePc.read a = s.read a) ∧
    State.advancePcWith false s = s

/-- The halt check (R110): a HALTED machine has no step; a running one whose PC reads 0 becomes HALTED with no other
change; and no other step halts. -/
def Obligations.HaltCheckAtTheTopOfTheCycle : Prop :=
  (∀ s t : State, s.run = .halted → step s ≠ .next t) ∧
  (∀ s : State, s.run = .running → s.pc = 0 → step s = .next { s with run := .halted }) ∧
  (∀ s t : State, s.pc ≠ 0 → step s = .next t → t.run = .running)

/-- The engine is total (R200): every instruction answers a next state in every state and leaves the run state alone, and a
running machine always has a next state. -/
def Obligations.RunningMachineAlwaysSteps : Prop :=
  (∀ (i : Instr) (s : State), ∃ t, exec i s = .next t ∧ t.run = s.run) ∧
  (∀ s : State, s.run = .running → ∃ t, step s = .next t)

/-- From every state, the one stop a run can come to is HALTED (R127, R200). That a HALTED machine answers a fault named
halted is the model's own choice (log 4). -/
def Obligations.OnlyHaltedStopsARun : Prop :=
  ∀ s : State, SafeFrom s

/-- The gate function (R114), for both values of GT_STRICT, over every status byte; the machine's is the one with
GT_STRICT true (decision D19). -/
def Obligations.ConditionGateFunction : Prop :=
  (∀ (strict : Bool) (sr : Byte),
    condPassWith strict .always sr = true ∧
    (condPassWith strict .gt sr = true ↔ sr.getLsbD 2 = false ∧ (strict = true → sr.getLsbD 3 = false)) ∧
    (condPassWith strict .lt sr = true ↔ sr.getLsbD 2 = true) ∧
    (condPassWith strict .eq sr = true ↔ sr.getLsbD 3 = true)) ∧
  (∀ c sr, condPass c sr = condPassWith true c sr)

/-- A cycle whose condition fails ends after the PC advance: PC holds PC + 4, no other byte is written, SR among them
(R115). -/
def Obligations.FailedConditionOnlyAdvancesPc : Prop :=
  ∀ s : State, s.run = .running → s.pc ≠ 0 → condPass (decode s.fetch).fields.cond s.sr = false →
    ∃ t, step s = .next t ∧ t.run = .running ∧ t.pc = s.pc + 4 ∧ t.sr = s.sr ∧
      ∀ a, a ≠ 0xFF02 → a ≠ 0xFF03 → t.read a = s.read a

/-! ## Flags -/

/-- The flag values (R120; decision D13): N is the sign of the last turn's result byte, Z says that every result byte is
0, C and V are the last turn's. -/
def Obligations.FlagsComeFromTheTurns : Prop :=
  ∀ (alu : Byte → Byte → AluOut) (f : Fields) (s : State),
    let a := turn alu f 0 s
    let b := turn alu f 1 a.1
    (f.size = .byte → (turns alu f s).2 =
      { z := decide (a.2.r = 0), n := a.2.r.msb, v := a.2.v, c := a.2.c }) ∧
    (f.size = .word → (turns alu f s).2 =
      { z := decide (a.2.r = 0 ∧ b.2.r = 0), n := b.2.r.msb, v := b.2.v, c := b.2.c })

/-- The flag write (R122; positions: decision D11): SR bits 7:4 stay, bits 3, 2, 1, 0 become Z, N, V, C, and no other byte
changes. -/
def Obligations.FlagWriteKeepsTheUpperBits : Prop :=
  ∀ (s : State) (fl : Flags),
    (∀ k, 4 ≤ k → (s.writeFlags fl).sr.getLsbD k = s.sr.getLsbD k) ∧
    (s.writeFlags fl).sr.getLsbD 3 = fl.z ∧ (s.writeFlags fl).sr.getLsbD 2 = fl.n ∧
    (s.writeFlags fl).sr.getLsbD 1 = fl.v ∧ (s.writeFlags fl).sr.getLsbD 0 = fl.c ∧
    (s.writeFlags fl).run = s.run ∧
    ∀ a, a ≠ 0xFF06 → (s.writeFlags fl).read a = s.read a

/-- An executed instruction never leaves N and Z both set (the note to R114's table, from R120 and R122). -/
def Obligations.ExecutedInstructionNeverSetsNAndZ : Prop :=
  ∀ (i : Instr) (s t : State), condPass i.fields.cond s.sr = true → exec i s = .next t → nzExclusive t = true

/-- N and Z both set is never reached from a state where they are not: every step keeps it so, for every state. -/
def Obligations.StepKeepsNAndZExclusive : Prop :=
  ∀ s t : State, nzExclusive s = true → step s = .next t → nzExclusive t = true

/-- An instruction of byte size whose P is SR, whatever its operation and mode, keeps bits 7:4 of its result in SR and has
bits 3:0 replaced by the flags of that result (R123); no other byte changes. -/
def Obligations.WriteToSrKeepsOnlyItsUpperBits : Prop :=
  ∀ (i : Instr) (s : State), i.fields.size = .byte → pAddr i.fields 0 = srAddr →
    condPass i.fields.cond s.sr = true →
    ∃ t, exec i s = .next t ∧
      let o := aluOf i.op s.sr (qValue i.fields 0 s)
      t.sr &&& 0xF0 = o.r &&& 0xF0 ∧ srN t.sr = o.r.msb ∧ srZ t.sr = decide (o.r = 0) ∧ srV t.sr = o.v ∧
      srC t.sr = o.c ∧ t.run = s.run ∧ ∀ a, a ≠ srAddr → t.read a = s.read a

/-! ## The operand resolver -/

/-- PAddr(d, t) (R141; register addresses: decision D5): operand16 + t in REG_MEM, 0xFF00 + reg + t elsewhere, modulo
2^16. -/
def Obligations.DestinationAddressOfATurn : Prop :=
  ∀ (f : Fields) (t : Nat),
    (f.mode = .regMem → (pAddr f t).toNat = (f.operand16.toNat + t) % 65536) ∧
    (f.mode ≠ .regMem → (pAddr f t).toNat = (0xFF00 + f.reg.toNat + t) % 65536)

/-- QValue(d, t) in each mode (R142 to R146): register hi + t; through the little-endian pointer in registers hi and hi + 1,
read in the turn's own state (decisions D8, D24); register reg + t; memory at operand16 + t; the literal byte. -/
def Obligations.SourceValueOfATurn : Prop :=
  ∀ (f : Fields) (s : State) (t : Nat), t < 2 →
    (f.mode = .regReg → f.ind = false →
      qValue f t s = s.read (BitVec.ofNat 16 (0xFF00 + f.hi.toNat + t))) ∧
    (f.mode = .regReg → f.ind = true →
      qValue f t s = s.read (BitVec.ofNat 16
        ((s.read (BitVec.ofNat 16 (0xFF00 + f.hi.toNat))).toNat
          + 256 * (s.read (BitVec.ofNat 16 (0xFF00 + f.hi.toNat + 1))).toNat + t))) ∧
    (f.mode = .regMem → qValue f t s = s.read (BitVec.ofNat 16 (0xFF00 + f.reg.toNat + t))) ∧
    (f.mode = .memReg → qValue f t s = s.read (BitVec.ofNat 16 (f.operand16.toNat + t))) ∧
    (f.mode = .immReg → (qValue f t s).toNat = f.operand16.toNat / 256 ^ t % 256)

/-- Turn 1 reads what turn 0 wrote (R147, second consequence): a word MOV from register n to register n + 1 copies the old
byte of register n into both bytes of its destination. -/
def Obligations.WordMoveOverlappingByOnePropagates : Prop :=
  ∀ (f : Fields) (s : State), f.size = .word → f.mode = .regReg → f.ind = false →
    f.reg.toNat = f.hi.toNat + 1 → pAddr f 0 ≠ srAddr → pAddr f 1 ≠ srAddr →
    condPass f.cond s.sr = true →
    ∃ t, exec (.mov f) s = .next t ∧
      t.read (pAddr f 0) = s.reg f.hi.toNat ∧ t.read (pAddr f 1) = s.reg f.hi.toNat ∧
      ∀ a, a ≠ pAddr f 0 → a ≠ pAddr f 1 → a ≠ srAddr → t.read a = s.read a

/-- The pointer is read afresh in turn 1 (R147, third consequence; decision D24): a word MOV through the pointer in registers
n, n + 1 to those same registers takes its second byte at the pointer whose low byte turn 0 has just replaced. -/
def Obligations.PointerIsReadAfreshInTurnOne : Prop :=
  ∀ (f : Fields) (s : State), f.size = .word → f.mode = .regReg → f.ind = true → f.reg = f.hi →
    pAddr f 0 ≠ srAddr → pAddr f 1 ≠ srAddr → condPass f.cond s.sr = true →
    ∃ t, exec (.mov f) s = .next t ∧
      let low := s.read (s.reg16 f.hi.toNat)
      let newPointer : Addr := s.reg (f.hi.toNat + 1) ++ low
      t.read (pAddr f 0) = low ∧
      t.read (pAddr f 1) = (s.write (pAddr f 0) low).read (newPointer + 1) ∧
      ∀ a, a ≠ pAddr f 0 → a ≠ pAddr f 1 → a ≠ srAddr → t.read a = s.read a

/-- A word operation on register 255 has its second byte at address 0x0000 (R22, R149; decisions D4, D5): a word MOV of an
immediate there writes 0xFFFF and 0x0000, the flags, and nothing else. -/
def Obligations.WordOnRegister255WrapsToAddressZero : Prop :=
  ∀ (c : Cond) (imm : BitVec 16) (s : State), condPass c s.sr = true →
    ∃ t, exec (.mov { size := .word, cond := c, mode := .immReg, reg := 0xFF, operand16 := imm }) s = .next t ∧
      t.read 0xFFFF = imm.setWidth 8 ∧ t.read 0x0000 = (imm >>> 8).setWidth 8 ∧
      t.sr = withFlags s.sr { z := decide (imm = 0), n := imm.msb, v := false, c := false } ∧
      t.run = s.run ∧
      ∀ a, a ≠ 0xFFFF → a ≠ 0x0000 → a ≠ 0xFF06 → t.read a = s.read a

/-! ## The operations -/

/-- MOV (R160): P becomes Q; C = 0 and V = 0 (decision D16). -/
def Obligations.MovCopiesQToP : Prop :=
  ∀ f : Fields, RunsAs (.mov f) (fun _ q => q) (fun _ _ => false) (fun _ _ => false)

/-- The reserved operation (R161; decision D18): P becomes Q, as MOV does, in a completion of its own. -/
def Obligations.ReservedCopiesQToP : Prop :=
  ∀ f : Fields, RunsAs (.reserved f) (fun _ q => q) (fun _ _ => false) (fun _ _ => false)

/-- The reserved operation executes exactly as MOV, in every state and form (R161). -/
def Obligations.ReservedExecutesAsMov : Prop :=
  ∀ (f : Fields) (s : State), exec (.reserved f) s = exec (.mov f) s

/-- ADC (R170): the sum modulo 256 with no carry in (decision D14), the carry out of bit 7, and signed overflow as the rule
writes it (decision D15). -/
def Obligations.AdcAddsQToP : Prop :=
  ∀ f : Fields, RunsAs (.adc f)
    (fun p q => BitVec.ofNat 8 ((p.toNat + q.toNat) % 256))
    (fun p q => decide (256 ≤ p.toNat + q.toNat))
    (fun p q => decide (p.msb = q.msb ∧ (BitVec.ofNat 8 ((p.toNat + q.toNat) % 256) : Byte).msb ≠ p.msb))

/-- SBC (R171): the difference modulo 256 with no borrow in (decision D14), the borrow, and signed overflow as the rule
writes it (decision D15). -/
def Obligations.SbcSubtractsQFromP : Prop :=
  ∀ f : Fields, RunsAs (.sbc f)
    (fun p q => BitVec.ofNat 8 ((256 + p.toNat - q.toNat) % 256))
    (fun p q => decide (p.toNat < q.toNat))
    (fun p q => decide (p.msb ≠ q.msb ∧ (BitVec.ofNat 8 ((256 + p.toNat - q.toNat) % 256) : Byte).msb ≠ p.msb))

/-- AND (R180): bitwise AND into P; C = 0 and V = 0 (decision D16). -/
def Obligations.AndIntoP : Prop :=
  ∀ f : Fields, RunsAs (.and f) (fun p q => p &&& q) (fun _ _ => false) (fun _ _ => false)

/-- OR (R181): bitwise inclusive OR into P; C = 0 and V = 0 (decision D16). -/
def Obligations.OrIntoP : Prop :=
  ∀ f : Fields, RunsAs (.or f) (fun p q => p ||| q) (fun _ _ => false) (fun _ _ => false)

/-- XOR (R182): bitwise exclusive OR into P; C = 0 and V = 0 (decision D16). -/
def Obligations.XorIntoP : Prop :=
  ∀ f : Fields, RunsAs (.xor f) (fun p q => p ^^^ q) (fun _ _ => false) (fun _ _ => false)

/-- ROT (R190, which is the spec's decision D17 whole): P rotated left by Q modulo 8, as the rule's formula has it; C = 0
and V = 0. -/
def Obligations.RotRotatesPLeft : Prop :=
  ∀ f : Fields, RunsAs (.rot f)
    (fun p q => BitVec.ofNat 8 ((p.toNat <<< (q.toNat % 8) ||| p.toNat >>> (8 - q.toNat % 8)) % 256))
    (fun _ _ => false) (fun _ _ => false)

/-- ADC's flags mean what two's-complement addition makes of them (R172): with the carry the sum is exact, and V is set just
where the signed sum is no signed byte. -/
def Obligations.AdcFlagsAreArithmetic : Prop :=
  ∀ p q : Byte,
    (aluAdc p q).r.toNat + (if (aluAdc p q).c then 256 else 0) = p.toNat + q.toNat ∧
    ((aluAdc p q).v = true ↔ p.toInt + q.toInt < -128 ∨ 127 < p.toInt + q.toInt)

/-- SBC's flags mean what two's-complement subtraction makes of them (R172): C is a borrow, and V is set just where the
signed difference is no signed byte. -/
def Obligations.SbcFlagsAreArithmetic : Prop :=
  ∀ p q : Byte,
    (aluSbc p q).r.toNat + q.toNat = p.toNat + (if (aluSbc p q).c then 256 else 0) ∧
    ((aluSbc p q).v = true ↔ p.toInt - q.toInt < -128 ∨ 127 < p.toInt - q.toInt)

/-- ROT moves bit k of P to bit k + Q modulo 8, and with Q = 8 - k it is a rotate right by k (R190's corner cases). -/
def Obligations.RotateMovesEachBit : Prop :=
  (∀ (p q : Byte) (k : Nat), k < 8 → (aluRot p q).r.getLsbD ((k + q.toNat) % 8) = p.getLsbD k) ∧
  (∀ (p : Byte) (k : Nat), 1 ≤ k → k ≤ 7 → (aluRot p (BitVec.ofNat 8 (8 - k))).r = p.rotateRight k)

/-- The lanes of a word are independent (R118; decision D14): for any operation with a word immediate, two states that
differ only in the low byte of P give the same high byte. -/
def Obligations.HighLaneIgnoresTheLowLane : Prop :=
  ∀ (i : Instr) (s₁ s₂ t₁ t₂ : State), i.fields.size = .word → i.fields.mode = .immReg →
    pAddr i.fields 0 ≠ srAddr → pAddr i.fields 1 ≠ srAddr →
    (∀ a, a ≠ pAddr i.fields 0 → s₁.read a = s₂.read a) →
    exec i s₁ = .next t₁ → exec i s₂ = .next t₂ → t₁.read (pAddr i.fields 1) = t₂.read (pAddr i.fields 1)

/-! ## Control transfer -/

/-- A word MOV of an immediate into PC is a jump (R125): the next PC is the immediate, not PC + 4; SR gets the flags of the
immediate, and no other byte changes. -/
def Obligations.ImmediateMoveToPcJumps : Prop :=
  ∀ (s : State) (c : Cond) (target : Addr), s.run = .running → s.pc ≠ 0 →
    decode s.fetch = .mov { size := .word, cond := c, mode := .immReg, reg := 0x02, operand16 := target } →
    condPass c s.sr = true →
    ∃ t, step s = .next t ∧ t.run = .running ∧ t.pc = target ∧
      t.sr = withFlags s.sr { z := decide (target = 0), n := target.msb, v := false, c := false } ∧
      ∀ a, a ≠ 0xFF02 → a ≠ 0xFF03 → a ≠ 0xFF06 → t.read a = s.read a

/-- A byte MOV into PC's low byte keeps the high byte of PC + 4, not of PC (R227). -/
def Obligations.ByteMoveToPcStaysInTheAdvancedPage : Prop :=
  ∀ (s : State) (c : Cond) (imm : BitVec 16), s.run = .running → s.pc ≠ 0 →
    decode s.fetch = .mov { size := .byte, cond := c, mode := .immReg, reg := 0x02, operand16 := imm } →
    condPass c s.sr = true →
    ∃ t, step s = .next t ∧ t.run = .running ∧
      t.pc.toNat = 256 * ((s.pc.toNat + 4) % 65536 / 256) + imm.toNat % 256 ∧
      ∀ a, a ≠ 0xFF02 → a ≠ 0xFF03 → a ≠ 0xFF06 → t.read a = s.read a

/-- An instruction that reads PC as Q reads PC + 4 (R126): a word MOV of PC to registers r, r + 1 puts the address of the
following word there, for every r but 3 (turn 0 replaces the PC byte turn 1 reads) and 5, 6 (a byte of the result is SR). -/
def Obligations.PcReadsAsTheAdvancedValue : Prop :=
  ∀ (s : State) (c : Cond) (r : BitVec 8), s.run = .running → s.pc ≠ 0 →
    decode s.fetch = .mov { size := .word, cond := c, mode := .regReg, reg := r, operand16 := 0x0200 } →
    condPass c s.sr = true → r ≠ 3 → r ≠ 5 → r ≠ 6 →
    ∃ t, step s = .next t ∧ t.run = .running ∧
      (t.reg r.toNat).toNat + 256 * (t.reg (r.toNat + 1)).toNat = (s.pc.toNat + 4) % 65536

/-! ## Memory and registers -/

/-- A register is a byte of memory (R21), and none is hardwired (R24; decision D7): x[i] is M[0xFF00 + i], a write to it
is read back, ZERO among them, and no other byte changes. -/
def Obligations.RegistersAreMemoryBytes : Prop :=
  ∀ (s : State) (i : Nat) (v : Byte), i < 256 →
    s.reg i = s.read (BitVec.ofNat 16 (0xFF00 + i)) ∧
    (s.setReg i v).reg i = v ∧
    (s.write (BitVec.ofNat 16 (0xFF00 + i)) v).reg i = v ∧
    ∀ a : Addr, a.toNat ≠ 0xFF00 + i → (s.setReg i v).read a = s.read a

/-- A 16-bit value in memory is little-endian (R51; decision D8): after a two-byte write the low byte is at `a`, the high
byte at `a + 1` modulo 2^16, the two-byte read gives the value back, and no other byte changes. -/
def Obligations.TwoByteValuesAreLittleEndian : Prop :=
  ∀ (m : Memory) (a : Addr) (v : BitVec 16),
    ((m.write16 a v).read a).toNat = v.toNat % 256 ∧
    ((m.write16 a v).read (a + 1)).toNat = v.toNat / 256 ∧
    (m.write16 a v).read16 a = v ∧
    ∀ b, b ≠ a → b ≠ a + 1 → (m.write16 a v).read b = m.read b

/-- Memories in canonical form that read the same everywhere are the same data (the model's own representation: log
13). -/
def Obligations.CanonicalMemoriesReadApart : Prop :=
  ∀ m₁ m₂ : Memory, m₁.wf → m₂.wf → (∀ a, m₁.read a = m₂.read a) → m₁ = m₂

/-- Every step keeps the memory in its canonical form (the model's own representation: log 13). -/
def Obligations.StepKeepsMemoryCanonical : Prop :=
  ∀ s t : State, s.mem.wf → step s = .next t → t.mem.wf

/-- The model's reset state meets both invariants: canonical memory (the model's own representation: log 13), and N and Z
not both set. It is the model's own point of R221's Reset, at START_ADDR 0x0100 (log 1) and with no PROGRAM (log 2): the note
to R114 says that a PROGRAM which covers SR can set both. -/
def Obligations.ResetMeetsTheInvariants : Prop :=
  State.reset.mem.wf ∧ nzExclusive State.reset = true

/-- A step changes no byte outside the writes of its accesses (R55): PC's two bytes, and, where the condition passes, the
bytes of P and SR. -/
def Obligations.StepChangesOnlyTheBytesItWrites : Prop :=
  ∀ (s t : State) (a : Addr), step s = .next t →
    (∀ x ∈ cycleAccesses s, x.kind = .write → x.covers a = false) → t.read a = s.read a

/-- A step depends on no byte outside the reads of its accesses (R55, R124; that a turn in IMM_REG reads nothing for Q is the
model's DEDUCED reading of R55 against R146: log 11): of two running machines that agree on every
byte the first one's cycle reads, the second makes the same accesses, and the two write the same bytes. -/
def Obligations.StepDependsOnlyOnTheBytesItReads : Prop :=
  ∀ s₁ s₂ t₁ t₂ : State, s₁.run = .running → s₂.run = .running →
    (∀ x ∈ cycleAccesses s₁, x.kind = .read → ∀ a, x.covers a = true → s₁.read a = s₂.read a) →
    step s₁ = .next t₁ → step s₂ = .next t₂ →
    cycleAccesses s₂ = cycleAccesses s₁ ∧ t₂.run = t₁.run ∧
    ∀ x ∈ cycleAccesses s₁, x.kind = .write → ∀ a, x.covers a = true → t₂.read a = t₁.read a

/-! ## Reset and the end of a run -/

/-- Reset(START_ADDR, PROGRAM) (R221; decisions D20, D26): a program whose length is no multiple of 4 or is over 65536 is
refused; any other is placed from START_ADDR upward, modulo 2^16, over zeroes, PC is START_ADDR whatever the program holds
there, and the machine runs. -/
def Obligations.LoadPlacesTheProgram : Prop :=
  ∀ (start : Addr) (program : List Byte),
    (program.length % 4 ≠ 0 ∨ 65536 < program.length →
      State.load start program = .refused (.programLength program.length)) ∧
    (program.length % 4 = 0 → program.length ≤ 65536 →
      ∃ s, State.load start program = .next s ∧ s.run = .running ∧ s.pc = start ∧
        (∀ k (hk : k < program.length), start + BitVec.ofNat 16 k ≠ 0xFF02 → start + BitVec.ofNat 16 k ≠ 0xFF03 →
          s.read (start + BitVec.ofNat 16 k) = program[k]) ∧
        (∀ a, a ≠ 0xFF02 → a ≠ 0xFF03 → (∀ k, k < program.length → a ≠ start + BitVec.ofNat 16 k) →
          s.read a = 0x00))

/-- The model's reset state is that of R221 with the model's own choices of START_ADDR (log 1) and of an empty PROGRAM (log
2): RUNNING, PC at START_ADDR, and every other byte, so every other register (ZERO, XX, SR, SP among them), 0. -/
def Obligations.ResetIsTheLoadOfNoProgram : Prop :=
  State.load Config.startAddr [] = .next State.reset ∧ State.reset.run = .running ∧
  State.reset.pc = Config.startAddr ∧ State.reset.zero = 0 ∧ State.reset.xx = 0 ∧ State.reset.sr = 0 ∧
  State.reset.sp = 0 ∧ ∀ a, a ≠ 0xFF02 → a ≠ 0xFF03 → State.reset.read a = 0x00

/-- The word that `State.withFetchWord` stores is the one the next step runs, from every state (the model's own interface:
logs 2, 8), in a state whose PC is past it. -/
def Obligations.StoredFetchWordIsRunNext : Prop :=
  ∀ (s : State) (w : Nat),
    step (s.withFetchWord 32 w) =
      exec (decode (BitVec.ofNat 32 w)) ((s.withFetchWord 32 w).setPc ((s.withFetchWord 32 w).pc + 4))

/-- A run has one result (R127): two step counts that show it HALTED show the same memory, and a count that shows the
result is good for every greater count. -/
def Obligations.RunResultIsUnique : Prop :=
  (∀ (s : State) (m₁ m₂ : Memory), HaltsWith s m₁ → HaltsWith s m₂ → m₁ = m₂) ∧
  (∀ (s : State) (m : Memory) (j k : Nat), runResult j s = some m → j ≤ k → runResult k s = some m)

/-! ## The toolchain -/

/-- The listing of an instruction that the assembler can write assembles to that instruction's four bytes (R104; decision
D25). -/
def Obligations.ListingReassembles : Prop :=
  ∀ i : Instr, i.assemblable = true → assemble (listing i) = .ok (wordBytes (encode i))

/-- Whatever text assembles gives whole words (R82, R101): a multiple of four bytes. -/
def Obligations.AssembledTextIsWholeWords : Prop :=
  ∀ (text : List Char) (bytes : List Byte), assemble text = .ok bytes → bytes.length % 4 = 0

/-- A number literal (R94; decision D25 for the range): its digits are taken greedily, its value is theirs, its kind is by
their count alone, and a value above 0xFFFF is out of range. -/
def Obligations.NumberLiteralsCountTheirDigits : Prop :=
  ∀ (k n : Nat) (rest : List Char), 0 < k → n < 16 ^ k → rest.head?.bind hexValue = none →
    (n ≤ 0xFFFF → parseNumber (listNumber k n ++ rest) = .ok ({ digits := k, value := n }, rest) ∧
      (Number.isRegister { digits := k, value := n } = true ↔ k ≤ 2)) ∧
    (0xFFFF < n → parseNumber (listNumber k n ++ rest) = .error .outOfRange)

/-- The worked encodings of R105: three statements and their bytes, and two that fail with UnsupportedMode. Which construct
a diagnostic names is the model's own form of it (log 10), and nothing here rests on it. -/
def Obligations.SpecStatementsAssemble : Prop :=
  assemble "MOV $02, #$1234".toList = .ok [0xC8, 0x02, 0x34, 0x12] ∧
  assemble "?GT ADC $01, $02".toList = .ok [0x12, 0x01, 0x00, 0x02] ∧
  assemble "MOV $0010, $03".toList = .ok [0x40, 0x03, 0x10, 0x00] ∧
  (∃ d, assemble "MOV #$01, $02".toList = .error d ∧ d.failure.error = .syntaxError .unsupportedMode) ∧
  (∃ d, assemble "MOV $0010, $0020".toList = .error d ∧ d.failure.error = .syntaxError .unsupportedMode)

/-- A failing statement aborts the whole run (R103, R101): whatever text assembles whole words of before it, the run ends
with no output and a diagnostic that names the failing statement by its number and carries that statement's own
failure. That the number and the construct identify the offence is the model's form of the diagnostic (log 10). -/
def Obligations.FailingStatementAbortsTheRun : Prop :=
  ∀ (fuel k n : Nat) (bytes : List Byte) (cs rest : List Char) (e : Failure),
    AssemblesUpTo cs n bytes rest → n < fuel → skipSpace rest ≠ [] →
    assembleStatement (skipSpace rest) = .error e →
    assembleWith fuel k cs = .error { statement := k + n, failure := e }
end

