-- ==== Sys2Proof/Laws/Assembler.lean ====
section
/-! SUPPORT. What the parts of the assembler can answer, so that no proof about it unfolds them. -/

namespace Sys2Proof.Machine

/-- Blaming a construct changes no answer. -/
@[simp] theorem blame_ok_iff {α : Type} (c : Construct) (r : Except AsmError α) (a : α) :
    blame c r = .ok a ↔ r = .ok a := by
  cases r <;> simp [blame, Except.mapError]

/-- Blaming a construct keeps the kind of the failure. -/
@[simp] theorem blame_error_iff {α : Type} (c : Construct) (r : Except AsmError α) (e : Failure) :
    blame c r = .error e ↔ r = .error e.error ∧ c = e.construct := by
  obtain ⟨k, n⟩ := e
  cases r <;> simp [blame, Except.mapError]

/-- A statement that assembles parsed to a record, and its bytes are those of the record's word. -/
theorem assembleStatement_ok {cs rest : List Char} {bytes : List Byte}
    (h : assembleStatement cs = .ok (bytes, rest)) :
    ∃ r w, parseStatement cs = .ok (r, rest) ∧ encodeRecord r = .ok w ∧ bytes = wordBytes w := by
  unfold assembleStatement at h
  cases hp : parseStatement cs with
  | error e => rw [hp] at h; cases h
  | ok p =>
    obtain ⟨r, after⟩ := p
    rw [hp] at h
    cases he : encodeRecord r with
    | error n => simp [bind, Except.bind, encodeParsed, he, Except.mapError] at h
    | ok w =>
      simp [bind, Except.bind, encodeParsed, he, Except.mapError, pure, Except.pure] at h
      exact ⟨r, w, by rw [h.2], he, h.1.symm⟩

/-- All that a run with an output can be: only white space is left, or a statement's bytes stand before those of the rest. -/
theorem assembleWith_ok {fuel k : Nat} {cs : List Char} {bytes : List Byte}
    (h : assembleWith fuel k cs = .ok bytes) :
    (skipSpace cs = [] ∧ bytes = []) ∨
    ∃ f word after tail, fuel = f + 1 ∧ skipSpace cs ≠ [] ∧ assembleStatement (skipSpace cs) = .ok (word, after) ∧
      assembleWith f (k + 1) after = .ok tail ∧ bytes = word ++ tail := by
  cases fuel with
  | zero => cases h
  | succ f =>
    unfold assembleWith at h
    split at h
    · cases h; exact .inl ⟨‹_›, rfl⟩
    · rename_i c r hc
      split at h
      · cases h
      · rename_i word after hs
        cases ht : assembleWith f (k + 1) after with
        | error d => rw [ht] at h; cases h
        | ok tail =>
          rw [ht] at h
          cases h
          exact .inr ⟨f, word, after, tail, rfl, by simp [hc], by rw [hc, hs], ht, rfl⟩

end Sys2Proof.Machine
end

