-- ==== Sys2Proof/Laws/Memory.lean ====
section
/-! SUPPORT. What the memory primitives do: a read after a write, and the canonical form kept by every operation. -/

namespace Sys2Proof.Machine

theorem Memory.lookup_erase (m : Memory) (k j : Nat) :
    (m.erase k).lookup j = if j = k then unlistedByte else m.lookup j := by
  induction m with
  | nil => simp [Memory.erase, Memory.lookup]
  | cons c m ih =>
    simp only [Memory.erase] at ih
    by_cases hc : c.1 = k
    · by_cases hj : j = k
      · simp_all [Memory.erase]
      · have : k ≠ j := Ne.symm hj
        simp_all [Memory.erase, Memory.lookup]
    · by_cases hj : c.1 = j
      · have : j ≠ k := fun h => hc (hj.trans h)
        simp [Memory.erase, Memory.lookup, hj, this]
      · simpa [Memory.erase, Memory.lookup, hc, hj] using ih

theorem Memory.erase_no_cell (m : Memory) (k : Nat) : ∀ c ∈ m.erase k, c.1 ≠ k := by
  intro c hc
  simpa using (List.mem_filter.mp hc).2

theorem Memory.lookup_place (m : Memory) (k : Nat) (v : Byte) (j : Nat) (h : ∀ c ∈ m, c.1 ≠ k) :
    (m.place k v).lookup j = if j = k then v else m.lookup j := by
  induction m with
  | nil => simp [Memory.place, Memory.lookup, eq_comm]
  | cons c m ih =>
    have hck : c.1 ≠ k := h c (by simp)
    have ih := ih fun d hd => h d (by simp [hd])
    unfold Memory.place
    split
    · simp [Memory.lookup, eq_comm]
    · by_cases hj : c.1 = j
      · have : j ≠ k := hj ▸ hck
        simp [Memory.lookup, hj, this]
      · simp [Memory.lookup, hj, ih]

/-- A write gives its value back at its own address and leaves every other byte as it was (R8). -/
theorem Memory.read_write (m : Memory) (a b : Addr) (v : Byte) :
    (m.write a v).read b = if b = a then v else m.read b := by
  have hab : b.toNat = a.toNat ↔ b = a := BitVec.toNat_inj
  unfold Memory.write Memory.read
  split
  · next hv => simp [Memory.lookup_erase, hab, hv]
  · simp only [Memory.lookup_place _ _ _ _ (Memory.erase_no_cell m a.toNat), Memory.lookup_erase, hab]
    split <;> rfl

@[simp] theorem Memory.read_write_same (m : Memory) (a : Addr) (v : Byte) : (m.write a v).read a = v := by
  simp [Memory.read_write]

theorem Memory.read_write_ne (m : Memory) {a b : Addr} (v : Byte) (h : b ≠ a) :
    (m.write a v).read b = m.read b := by
  simp [Memory.read_write, h]

@[simp] theorem Memory.read_nil (a : Addr) : Memory.read [] a = unlistedByte := rfl

/-! ## The canonical form -/

theorem Memory.wf_nil : Memory.wf [] := ⟨List.Pairwise.nil, by simp⟩

theorem Memory.wf_erase {m : Memory} (h : m.wf) (k : Nat) : (m.erase k).wf :=
  ⟨h.1.filter _, fun c hc => h.2 c (List.mem_filter.mp hc).1⟩

theorem Memory.mem_place {m : Memory} {k : Nat} {v : Byte} {c : Host.Cell} (h : c ∈ m.place k v) :
    c = (k, v) ∨ c ∈ m := by
  induction m with
  | nil => simpa [Memory.place] using h
  | cons d m ih =>
    unfold Memory.place at h
    split at h
    · simpa using h
    · rcases List.mem_cons.mp h with rfl | h
      · simp
      · rcases ih h with h | h <;> simp [h]

theorem Memory.wf_place {m : Memory} (h : m.wf) {k : Nat} {v : Byte} (hk : k < 65536) (hv : v ≠ unlistedByte)
    (hn : ∀ c ∈ m, c.1 ≠ k) : (m.place k v).wf := by
  refine ⟨?_, fun c hc => ?_⟩
  · induction m with
    | nil => simp [Memory.place]
    | cons d m ih =>
      have hd : (∀ c ∈ m, d.1 < c.1) ∧ m.Pairwise fun c d => c.1 < d.1 := List.pairwise_cons.mp h.1
      have hdk : d.1 ≠ k := hn d (by simp)
      unfold Memory.place
      split
      · next hlt =>
        refine List.pairwise_cons.mpr ⟨fun c hc => ?_, h.1⟩
        rcases List.mem_cons.mp hc with rfl | hc
        · exact hlt
        · exact hlt.trans (hd.1 c hc)
      · next hge =>
        refine List.pairwise_cons.mpr ⟨fun c hc => ?_, ih ⟨hd.2, fun c hc => h.2 c (by simp [hc])⟩
          fun c hc => hn c (by simp [hc])⟩
        rcases Memory.mem_place hc with rfl | hc
        · simp only; omega
        · exact hd.1 c hc
  · rcases Memory.mem_place hc with rfl | hc
    · exact ⟨hk, hv⟩
    · exact h.2 c hc

/-- A write keeps the canonical form. -/
theorem Memory.wf_write {m : Memory} (h : m.wf) (a : Addr) (v : Byte) : (m.write a v).wf := by
  unfold Memory.write
  split
  · exact Memory.wf_erase h _
  · next hv => exact Memory.wf_place (Memory.wf_erase h _) (by omega) hv (Memory.erase_no_cell m _)

theorem Memory.wf_write16 {m : Memory} (h : m.wf) (a : Addr) (v : BitVec 16) : (m.write16 a v).wf :=
  Memory.wf_write (Memory.wf_write h _ _) _ _

theorem Memory.wf_writeBytes {m : Memory} (h : m.wf) (a : Addr) (bs : List Byte) : (m.writeBytes a bs).wf := by
  induction bs generalizing m a with
  | nil => exact h
  | cons b bs ih => exact ih (Memory.wf_write h a b) (a + 1)

/-! ## Two-byte values -/

/-- A two-byte write puts the low byte at `a` and the high byte at `a + 1`, and changes no other byte (R8, R51). -/
theorem Memory.read_write16 (m : Memory) (a b : Addr) (v : BitVec 16) :
    (m.write16 a v).read b =
      if b = a + 1 then v.extractLsb' 8 8 else if b = a then v.extractLsb' 0 8 else m.read b := by
  simp only [Memory.write16, Memory.read_write]

end Sys2Proof.Machine
end

