-- ==== Sys2Proof/Laws/State.lean ====
section
/-! SUPPORT. One lemma for each field and each update of State, and what the register operations read back. -/

namespace Sys2Proof.Machine

@[simp] theorem State.write_mem (s : State) (a : Addr) (v : Byte) : (s.write a v).mem = s.mem.write a v := rfl
@[simp] theorem State.write_run (s : State) (a : Addr) (v : Byte) : (s.write a v).run = s.run := rfl
@[simp] theorem State.setReg_mem (s : State) (i : Nat) (v : Byte) : (s.setReg i v).mem = s.mem.write (regAddr i) v := rfl
@[simp] theorem State.setReg_run (s : State) (i : Nat) (v : Byte) : (s.setReg i v).run = s.run := rfl
@[simp] theorem State.setPc_mem (s : State) (a : Addr) : (s.setPc a).mem = s.mem.write16 pcAddr a := rfl
@[simp] theorem State.setPc_run (s : State) (a : Addr) : (s.setPc a).run = s.run := rfl
@[simp] theorem State.setSr_mem (s : State) (v : Byte) : (s.setSr v).mem = s.mem.write srAddr v := rfl
@[simp] theorem State.setSr_run (s : State) (v : Byte) : (s.setSr v).run = s.run := rfl
@[simp] theorem State.halt_mem (s : State) : s.halt.mem = s.mem := rfl
@[simp] theorem State.halt_run (s : State) : s.halt.run = .halted := rfl
@[simp] theorem State.placeAtPc_mem (s : State) (bs : List Byte) :
    (s.placeAtPc bs).mem = s.mem.writeBytes s.pc bs := rfl
@[simp] theorem State.placeAtPc_run (s : State) (bs : List Byte) : (s.placeAtPc bs).run = s.run := rfl

/-- With AUTO_ADVANCE set, as the spec has it, the advance is the PC write of R112. -/
@[simp] theorem State.advancePc_eq (s : State) : s.advancePc = s.setPc (s.pc + 4) := rfl

theorem State.read_write (s : State) (a b : Addr) (v : Byte) :
    (s.write a v).read b = if b = a then v else s.read b :=
  Memory.read_write s.mem a b v

@[simp] theorem State.read_write_same (s : State) (a : Addr) (v : Byte) : (s.write a v).read a = v := by
  simp [State.read_write]

theorem State.read_write_ne (s : State) {a b : Addr} (v : Byte) (h : b ≠ a) : (s.write a v).read b = s.read b := by
  simp [State.read_write, h]

@[simp] theorem State.halt_read (s : State) (a : Addr) : s.halt.read a = s.read a := rfl

/-! ## The named addresses -/

theorem pcAddr_eq : pcAddr = 0xFF02 := rfl
theorem pcAddr_succ_eq : pcAddr + 1 = 0xFF03 := rfl
theorem srAddr_eq : srAddr = 0xFF06 := rfl
theorem srAddr_ne_pcAddr : srAddr ≠ pcAddr := by decide
theorem srAddr_ne_pcAddr_succ : srAddr ≠ pcAddr + 1 := by decide

/-! ## PC and SR -/

/-- Writing PC changes its two bytes and no other (R10). -/
theorem State.read_setPc (s : State) (a b : Addr) :
    (s.setPc a).read b =
      if b = pcAddr + 1 then a.extractLsb' 8 8 else if b = pcAddr then a.extractLsb' 0 8 else s.read b :=
  Memory.read_write16 s.mem pcAddr b a

theorem State.read_setPc_ne (s : State) (a : Addr) {b : Addr} (h0 : b ≠ pcAddr) (h1 : b ≠ pcAddr + 1) :
    (s.setPc a).read b = s.read b := by
  rw [State.read_setPc, if_neg h1, if_neg h0]

theorem State.pc_eq_bytes (s : State) : s.pc = s.read (pcAddr + 1) ++ s.read pcAddr := rfl

@[simp] theorem State.setPc_sr (s : State) (a : Addr) : (s.setPc a).sr = s.sr :=
  State.read_setPc_ne s a srAddr_ne_pcAddr srAddr_ne_pcAddr_succ

theorem extract_append_extract (a : BitVec 16) : a.extractLsb' 8 8 ++ a.extractLsb' 0 8 = a := by
  apply BitVec.eq_of_getLsbD_eq
  intro i hi
  rw [BitVec.getLsbD_append]
  by_cases h : i < 8
  · simp [h]
  · have h8 : i - 8 < 8 := by omega
    have hs : 8 + (i - 8) = i := by omega
    simp [h, h8, hs]

@[simp] theorem State.setPc_pc (s : State) (a : Addr) : (s.setPc a).pc = a := by
  have h : pcAddr ≠ pcAddr + 1 := by decide
  simp only [State.pc_eq_bytes, State.read_setPc, h, if_true, if_false]
  exact extract_append_extract a

@[simp] theorem State.setSr_sr (s : State) (v : Byte) : (s.setSr v).sr = v :=
  State.read_write_same s srAddr v

theorem State.read_setSr_ne (s : State) (v : Byte) {a : Addr} (h : a ≠ srAddr) : (s.setSr v).read a = s.read a :=
  State.read_write_ne s v h

end Sys2Proof.Machine
end

