-- ==== Sys2Proof/Laws/Flags.lean ====
section
/-! SUPPORT. The flag write, bit by bit (40_cycle.md R120, R122). -/

namespace Sys2Proof.Machine

/-- Bits 7:4 are kept, bits 3:0 are Z, N, V, C (R122). -/
theorem withFlags_getLsbD (sr : Byte) (fl : Flags) (i : Nat) (hi : i < 8) :
    (withFlags sr fl).getLsbD i =
      if i = 0 then fl.c else if i = 1 then fl.v else if i = 2 then fl.n else if i = 3 then fl.z
      else sr.getLsbD i := by
  obtain ⟨z, n, v, c⟩ := fl
  interval_cases i <;> cases z <;> cases n <;> cases v <;> cases c <;> simp [withFlags, bit]

@[simp] theorem srC_withFlags (sr : Byte) (fl : Flags) : srC (withFlags sr fl) = fl.c :=
  withFlags_getLsbD sr fl 0 (by decide)

@[simp] theorem srV_withFlags (sr : Byte) (fl : Flags) : srV (withFlags sr fl) = fl.v :=
  withFlags_getLsbD sr fl 1 (by decide)

@[simp] theorem srN_withFlags (sr : Byte) (fl : Flags) : srN (withFlags sr fl) = fl.n :=
  withFlags_getLsbD sr fl 2 (by decide)

@[simp] theorem srZ_withFlags (sr : Byte) (fl : Flags) : srZ (withFlags sr fl) = fl.z :=
  withFlags_getLsbD sr fl 3 (by decide)

@[simp] theorem State.writeFlags_run (s : State) (fl : Flags) : (s.writeFlags fl).run = s.run := rfl

@[simp] theorem State.writeFlags_mem (s : State) (fl : Flags) :
    (s.writeFlags fl).mem = s.mem.write srAddr (withFlags s.sr fl) := rfl

@[simp] theorem State.writeFlags_sr (s : State) (fl : Flags) : (s.writeFlags fl).sr = withFlags s.sr fl :=
  State.setSr_sr s _

theorem State.read_writeFlags_ne (s : State) (fl : Flags) {a : Addr} (h : a ≠ srAddr) :
    (s.writeFlags fl).read a = s.read a :=
  State.read_setSr_ne s _ h

end Sys2Proof.Machine
end

