-- ==== Sys2Proof/Laws/Cycle.lean ====
section
/-! SUPPORT. What a turn, an instruction and a step can do, each said once. -/

namespace Sys2Proof.Machine

/-! ## Addresses of P -/

/-- P is at consecutive addresses in the two turns (R141). -/
theorem pAddr_one (f : Fields) : pAddr f 1 = pAddr f 0 + 1 := by
  have h (b : Addr) (n : Nat) : b + BitVec.ofNat 16 (n + 1) = b + BitVec.ofNat 16 n + 1 := by
    rw [BitVec.ofNat_add, BitVec.add_assoc]
    rfl
  obtain ⟨size, cond, mode, reg, operand16⟩ := f
  cases mode <;> simp only [pAddr, regAddr, Nat.add_zero] <;> exact h _ _

theorem pAddr_one_ne_zero (f : Fields) : pAddr f 1 ≠ pAddr f 0 := by
  rw [pAddr_one]
  generalize pAddr f 0 = a
  bv_omega

/-! ## A turn -/

@[simp] theorem turn_run (alu : Byte → Byte → AluOut) (f : Fields) (t : Nat) (s : State) :
    (turn alu f t s).1.run = s.run := rfl

@[simp] theorem turn_out (alu : Byte → Byte → AluOut) (f : Fields) (t : Nat) (s : State) :
    (turn alu f t s).2 = alu (s.read (pAddr f t)) (qValue f t s) := rfl

/-- A turn writes its result byte to P and no other byte (R116). -/
theorem turn_read (alu : Byte → Byte → AluOut) (f : Fields) (t : Nat) (s : State) (a : Addr) :
    (turn alu f t s).1.read a =
      if a = pAddr f t then (alu (s.read (pAddr f t)) (qValue f t s)).r else s.read a :=
  State.read_write s _ _ _

theorem turn_wf (alu : Byte → Byte → AluOut) (f : Fields) (t : Nat) {s : State} (h : s.mem.wf) :
    (turn alu f t s).1.mem.wf :=
  Memory.wf_write h _ _

/-! ## All turns and the flag write -/

@[simp] theorem runTurns_run (alu : Byte → Byte → AluOut) (f : Fields) (s : State) : (runTurns alu f s).run = s.run := by
  unfold runTurns turns
  cases f.size <;> rfl

theorem runTurns_wf (alu : Byte → Byte → AluOut) (f : Fields) {s : State} (h : s.mem.wf) :
    (runTurns alu f s).mem.wf := by
  unfold runTurns turns
  cases f.size with
  | byte => exact Memory.wf_write (turn_wf alu f 0 h) _ _
  | word => exact Memory.wf_write (turn_wf alu f 1 (turn_wf alu f 0 h)) _ _

/-- All that a byte-size instruction does when its condition passes. -/
theorem runTurns_byteEffect (alu : Byte → Byte → AluOut) (f : Fields) (s : State) (hsize : f.size = .byte) :
    ByteEffect f s (runTurns alu f s) (alu (s.read (pAddr f 0)) (qValue f 0 s)).r
      (flagsOf ((alu (s.read (pAddr f 0)) (qValue f 0 s)).r == 0) (alu (s.read (pAddr f 0)) (qValue f 0 s))) := by
  have hrun : runTurns alu f s = (turn alu f 0 s).1.writeFlags
      (flagsOf ((alu (s.read (pAddr f 0)) (qValue f 0 s)).r == 0) (alu (s.read (pAddr f 0)) (qValue f 0 s))) := by
    simp [runTurns, turns, hsize]
  rw [hrun]
  refine ⟨rfl, fun a ha hs => ?_, fun hp => ⟨?_, ?_⟩, fun hp => ?_⟩
  · rw [State.read_writeFlags_ne _ _ hs, turn_read, if_neg ha]
  · rw [State.read_writeFlags_ne _ _ hp, turn_read, if_pos rfl]
  · rw [State.writeFlags_sr, State.sr, turn_read, if_neg (Ne.symm hp), State.sr]
  · rw [State.writeFlags_sr, State.sr, turn_read, if_pos hp.symm]

/-- All that a word-size instruction does when its condition passes: turn 1 is resolved in the state turn 0 leaves
(R147). -/
theorem runTurns_wordEffect (alu : Byte → Byte → AluOut) (f : Fields) (s : State) (hsize : f.size = .word) :
    let o0 := alu (s.read (pAddr f 0)) (qValue f 0 s)
    let o1 := alu (s.read (pAddr f 1)) (qValue f 1 (s.write (pAddr f 0) o0.r))
    WordEffect f s (runTurns alu f s) o0.r o1.r (flagsOf (o0.r == 0 && o1.r == 0) o1) := by
  intro o0 o1
  have hne := pAddr_one_ne_zero f
  have ho1 : (turn alu f 1 (turn alu f 0 s).1).2 = o1 := by
    rw [turn_out, turn_read, if_neg hne]
    rfl
  have hrun : runTurns alu f s =
      (turn alu f 1 (turn alu f 0 s).1).1.writeFlags (flagsOf (o0.r == 0 && o1.r == 0) o1) := by
    rw [runTurns, turns, hsize]
    simp only [ho1, turn_out]
    rfl
  have hread (a : Addr) : (turn alu f 1 (turn alu f 0 s).1).1.read a =
      if a = pAddr f 1 then o1.r else if a = pAddr f 0 then o0.r else s.read a := by
    rw [turn_read, ← turn_out alu f 1, ho1, turn_read]
  rw [hrun]
  refine ⟨rfl, fun a h0 h1 hs => ?_, fun hp => ?_, fun hp => ?_, fun hp0 hp1 => ?_, fun hp => ?_, fun hp => ?_⟩
  · rw [State.read_writeFlags_ne _ _ hs, hread, if_neg h1, if_neg h0]
  · rw [State.read_writeFlags_ne _ _ hp, hread, if_neg hne.symm, if_pos rfl]
  · rw [State.read_writeFlags_ne _ _ hp, hread, if_pos rfl]
  · rw [State.writeFlags_sr, State.sr, hread, if_neg (Ne.symm hp1), if_neg (Ne.symm hp0), State.sr]
  · rw [State.writeFlags_sr, State.sr, hread, if_neg (fun h => hne (h.symm.trans hp.symm)), if_pos hp.symm]
  · rw [State.writeFlags_sr, State.sr, hread, if_pos hp.symm]

/-! ## The gate -/

theorem execGated_pass (alu : Byte → Byte → AluOut) (f : Fields) (s : State) (h : condPass f.cond s.sr = true) :
    execGated alu f s = .next (runTurns alu f s) := by
  simp [execGated, h]

theorem execGated_skip (alu : Byte → Byte → AluOut) (f : Fields) (s : State) (h : condPass f.cond s.sr = false) :
    execGated alu f s = .next s := by
  simp [execGated, h]

/-- All that a gated instruction can answer: it ran whole, or it left the state as it was (R115). -/
theorem execGated_next {alu : Byte → Byte → AluOut} {f : Fields} {s t : State} (h : execGated alu f s = .next t) :
    (condPass f.cond s.sr = true ∧ t = runTurns alu f s) ∨ (condPass f.cond s.sr = false ∧ t = s) := by
  unfold execGated at h
  split at h
  · next hc => exact .inl ⟨hc, (Host.Outcome.next.inj h).symm⟩
  · next hc => exact .inr ⟨by simpa using hc, (Host.Outcome.next.inj h).symm⟩

/-- Every arm of `exec` is the gate over its own ALU function. -/
theorem exec_eq_execGated (i : Instr) (s : State) : exec i s = execGated (aluOf i.op) i.fields s := by
  cases i <;> rfl

/-! ## A step -/

theorem step_halted {s : State} (h : s.run = .halted) : step s = .fault .halted := by
  simp [step, h]

theorem step_pc_zero {s : State} (h : s.run = .running) (hpc : s.pc = 0) : step s = .next s.halt := by
  simp [step, h, hpc]

theorem step_exec {s : State} (h : s.run = .running) (hpc : s.pc ≠ 0) :
    step s = exec (decode s.fetch) (s.setPc (s.pc + 4)) := by
  simp only [step, h, if_neg hpc, State.advancePc_eq]

/-- All that a step can answer with a next state: the halt, or the decoded instruction after the PC advance. -/
theorem step_next {s t : State} (h : step s = .next t) :
    s.run = .running ∧
      ((s.pc = 0 ∧ t = s.halt) ∨ (s.pc ≠ 0 ∧ exec (decode s.fetch) (s.setPc (s.pc + 4)) = .next t)) := by
  cases hrun : s.run with
  | halted => simp [step_halted hrun] at h
  | running =>
    by_cases hpc : s.pc = 0
    · rw [step_pc_zero hrun hpc] at h
      exact ⟨rfl, .inl ⟨hpc, (Host.Outcome.next.inj h).symm⟩⟩
    · rw [step_exec hrun hpc] at h
      exact ⟨rfl, .inr ⟨hpc, h⟩⟩

end Sys2Proof.Machine
end

