-- ==== Sys2Proof/Laws/PerInstr.lean ====
section
/-! SUPPORT. A family of facts about every instruction as syntax, one lemma per constructor. -/

namespace Sys2Proof.Laws.FixedBits

/-- The encoding's low three bits are the opcode that spec/opcode_table.json gives the row. -/
def Statement (i : Instr) : Prop := (encode i).extractLsb' 0 3 = i.op.code

theorem low_bits (f : Fields) (c : BitVec 3) :
    BitVec.extractLsb' 0 3 (f.operand16 ++ (f.reg ++ (f.mode.code ++ (f.cond.code ++ (f.size.code ++ c))))) = c := by
  apply BitVec.eq_of_getLsbD_eq
  intro k hk
  simp only [BitVec.getLsbD_extractLsb', BitVec.getLsbD_append, hk, Nat.zero_add, decide_true, Bool.true_and, if_true]
  rw [if_pos (by omega), if_pos (by omega), if_pos (by omega), if_pos (by omega)]

theorem mov (f : Fields) : Statement (.mov f) := low_bits f _
theorem reserved (f : Fields) : Statement (.reserved f) := low_bits f _
theorem adc (f : Fields) : Statement (.adc f) := low_bits f _
theorem sbc (f : Fields) : Statement (.sbc f) := low_bits f _
theorem and (f : Fields) : Statement (.and f) := low_bits f _
theorem or (f : Fields) : Statement (.or f) := low_bits f _
theorem xor (f : Fields) : Statement (.xor f) := low_bits f _
theorem rot (f : Fields) : Statement (.rot f) := low_bits f _

end Sys2Proof.Laws.FixedBits
end

