-- ==== Sys2Proof/Laws/Trace.lean ====
section
/-! SUPPORT. Which bytes an access of one, two or four bytes touches (00_scope.md R8). -/

namespace Sys2Proof.Machine

theorem Access.covers_one (k : AccessKind) (a b : Addr) :
    Access.covers { kind := k, addr := a, len := 1 } b = true ↔ b = a := by
  rw [Access.covers, decide_eq_true_iff]
  constructor <;> intro h <;> bv_omega

theorem Access.covers_two (k : AccessKind) (a b : Addr) :
    Access.covers { kind := k, addr := a, len := 2 } b = true ↔ b = a ∨ b = a + 1 := by
  rw [Access.covers, decide_eq_true_iff]
  constructor <;> intro h <;> bv_omega

theorem Access.covers_four (k : AccessKind) (a b : Addr) :
    Access.covers { kind := k, addr := a, len := 4 } b = true ↔ b = a ∨ b = a + 1 ∨ b = a + 2 ∨ b = a + 3 := by
  rw [Access.covers, decide_eq_true_iff]
  constructor <;> intro h <;> bv_omega

end Sys2Proof.Machine
end

