-- ==== Sys2Proof/Tests/Slice0.lean ====
section
/-! SUPPORT. The model's own tests. Expected results are those of 95_test_vectors.md, and words are those the spec writes
out; the witnesses show that the hypotheses of the statements can be met. -/

namespace Sys2Proof.Tests

open Sys2Proof Sys2Proof.Machine

/-! ## Well-formedness: an ill-formed term for each check (R74, R81, R92) -/

/-- A record in which every field has its greatest value. -/
def greatest : Record := { op := 7, size := 1, cond := 3, mode := 3, reg := 255, operand16 := 65535 }

theorem test_record_greatest_accepted : greatest.WellFormed = true := by decide
theorem test_record_op_refused : { greatest with op := 8 }.firstOutOfRange = some .op := by decide
theorem test_record_size_refused : { greatest with size := 2 }.firstOutOfRange = some .size := by decide
theorem test_record_cond_refused : { greatest with cond := 4 }.firstOutOfRange = some .cond := by decide
theorem test_record_mode_refused : { greatest with mode := 4 }.firstOutOfRange = some .mode := by decide
theorem test_record_reg_refused : { greatest with reg := 256 }.firstOutOfRange = some .reg := by decide
theorem test_record_operand16_refused : { greatest with operand16 := 65536 }.firstOutOfRange = some .operand16 := by
  decide
theorem test_record_ill_formed : { greatest with reg := 256 }.WellFormed = false := by decide
theorem test_dont_care_lo_refused : (decode 0x09FE0800).assemblable = false := by decide
theorem test_dont_care_hi_refused : (decode 0x123408C0).assemblable = false := by decide
theorem test_reserved_not_assemblable : (decode 0x000508C1).assemblable = false := by decide

/-! ## Decoding: words of 95_test_vectors.md sections 2.1 and 2.2, and R105 -/

/-- An instruction of an operation, from its fields in the order of the spec's table. -/
def ins (o : Op) (size : Size) (cond : Cond) (mode : Mode) (reg : BitVec 8) (operand16 : BitVec 16) : Instr :=
  Instr.ofOp o { size, cond, mode, reg, operand16 }

/-- A word that decodes to an instruction whose encoding is the word again. -/
def stands (w : Word) (i : Instr) : Bool := decode w == i && encode i == w

theorem test_decode_mov_zero : stands 0x00000000 (ins .mov .byte .always .regReg 0x00 0x0000) = true := by decide
theorem test_decode_mov_immediate_word : stands 0x123402C8 (ins .mov .word .always .immReg 0x02 0x1234) = true := by decide
theorem test_decode_mov_to_memory : stands 0x00010340 (ins .mov .byte .always .regMem 0x03 0x0001) = true := by decide
theorem test_decode_mov_from_memory : stands 0x00100380 (ins .mov .byte .always .memReg 0x03 0x0010) = true := by decide
theorem test_decode_reserved : stands 0x000508C1 (ins .reserved .byte .always .immReg 0x08 0x0005) = true := by decide
theorem test_decode_adc_gt : stands 0x02000112 (ins .adc .byte .gt .regReg 0x01 0x0200) = true := by decide
theorem test_decode_adc_indirect : stands 0x0C01100A (ins .adc .word .always .regReg 0x10 0x0C01) = true := by decide
theorem test_decode_sbc : stands 0x000F08C3 (ins .sbc .byte .always .immReg 0x08 0x000F) = true := by decide
theorem test_decode_and : stands 0x000F08C4 (ins .and .byte .always .immReg 0x08 0x000F) = true := by decide
theorem test_decode_or_word : stands 0x0A00080D (ins .or .word .always .regReg 0x08 0x0A00) = true := by decide
theorem test_decode_xor_lt : stands 0x09000926 (ins .xor .byte .lt .regReg 0x09 0x0900) = true := by decide
theorem test_decode_rot_all_ones : stands 0xFFFFFFFF (ins .rot .word .eq .immReg 0xFF 0xFFFF) = true := by decide
theorem test_ind_only_in_reg_reg : (decode 0x0C01100A).fields.ind = true ∧ (decode 0x00010340).fields.ind = false := by
  decide
theorem test_decode_bytes_little_endian : decodeBytes [0xC8, 0x02, 0x34, 0x12, 0x00] = .ok (decode 0x123402C8, [0x00]) := by
  decide
theorem test_decode_bytes_truncated : decodeBytes [0xC8, 0x02, 0x34] = .error .truncated := by decide
theorem test_decode_table_word : decodeTableWord 32 0x02000112 = some (ins .adc .byte .gt .regReg 0x01 0x0200) := by
  decide

/-! ## The ALU: every row of 95_test_vectors.md section 2.4, one theorem for each operation -/

/-- Rows (P, Q, R, N, Z, C, V) that an ALU function meets, N and Z being those of a byte-size instruction. -/
def meets (alu : Byte → Byte → AluOut) (rows : List (Byte × Byte × Byte × Bool × Bool × Bool × Bool)) : Bool :=
  rows.all fun (p, q, r, n, z, c, v) =>
    alu p q == { r := r, c := c, v := v } && flagsOf (r == 0) (alu p q) == { z := z, n := n, v := v, c := c }

theorem test_alu_mov : meets aluMov [
    (0x12, 0x00, 0x00, false, true, false, false), (0x12, 0x80, 0x80, true, false, false, false),
    (0x12, 0x7F, 0x7F, false, false, false, false)] = true := by decide
theorem test_alu_reserved : meets aluReserved [
    (0x12, 0x00, 0x00, false, true, false, false), (0x00, 0x80, 0x80, true, false, false, false)] = true := by decide
theorem test_alu_adc : meets aluAdc [
    (0x05, 0xFD, 0x02, false, false, true, false), (0xFF, 0x01, 0x00, false, true, true, false),
    (0x7F, 0x01, 0x80, true, false, false, true), (0x80, 0x80, 0x00, false, true, true, true),
    (0x80, 0xFF, 0x7F, false, false, true, true), (0x00, 0x00, 0x00, false, true, false, false),
    (0x01, 0x01, 0x02, false, false, false, false), (0xFF, 0xFF, 0xFE, true, false, true, false)] = true := by decide
theorem test_alu_sbc : meets aluSbc [
    (0xFF, 0x0F, 0xF0, true, false, false, false), (0x00, 0x01, 0xFF, true, false, true, false),
    (0x80, 0x01, 0x7F, false, false, false, true), (0x7F, 0xFF, 0x80, true, false, true, true),
    (0x05, 0x05, 0x00, false, true, false, false), (0x00, 0x80, 0x80, true, false, true, true),
    (0x01, 0x02, 0xFF, true, false, true, false), (0x80, 0x7F, 0x01, false, false, false, true)] = true := by decide
theorem test_alu_and : meets aluAnd [
    (0xF5, 0x0F, 0x05, false, false, false, false), (0xAA, 0x55, 0x00, false, true, false, false),
    (0x80, 0xFF, 0x80, true, false, false, false), (0x12, 0xFF, 0x12, false, false, false, false)] = true := by decide
theorem test_alu_or : meets aluOr [
    (0x01, 0x80, 0x81, true, false, false, false), (0x00, 0x00, 0x00, false, true, false, false),
    (0xAA, 0x55, 0xFF, true, false, false, false), (0x0F, 0x00, 0x0F, false, false, false, false)] = true := by decide
theorem test_alu_xor : meets aluXor [
    (0x0F, 0xFF, 0xF0, true, false, false, false), (0x5A, 0x5A, 0x00, false, true, false, false),
    (0x80, 0x00, 0x80, true, false, false, false), (0x00, 0x80, 0x80, true, false, false, false)] = true := by decide
theorem test_alu_rot : meets aluRot [
    (0x81, 0x01, 0x03, false, false, false, false), (0x81, 0x00, 0x81, true, false, false, false),
    (0x81, 0x08, 0x81, true, false, false, false), (0x81, 0x09, 0x03, false, false, false, false),
    (0x81, 0xFF, 0xC0, true, false, false, false), (0x01, 0x07, 0x80, true, false, false, false),
    (0x00, 0x03, 0x00, false, true, false, false), (0x96, 0x04, 0x69, false, false, false, false),
    (0x80, 0x01, 0x01, false, false, false, false)] = true := by decide

/-! ## Whole cycles: rows of 95_test_vectors.md section 2.5 -/

/-- A state with the given bytes written. -/
def poke (s : State) (cells : List (Addr × Byte)) : State :=
  cells.foldl (fun s c => s.write c.1 c.2) s

/-- A running machine at `pc` with `word` stored there, and the given bytes besides. -/
def start (pc : Addr) (word : Word) (cells : List (Addr × Byte)) : State :=
  ((poke { mem := [], run := .running } cells).setPc pc).placeAtPc (wordBytes word)

/-- One step from `start` changes exactly the listed bytes, to the listed values. -/
def changes (pc : Addr) (word : Word) (cells changed : List (Addr × Byte)) : Bool :=
  match step (start pc word cells) with
  | .next t => t == poke (start pc word cells) changed
  | .fault _ => false
  | .refused _ => false

/-- V2. -/
theorem test_step_mov_reads_advanced_pc : changes 0x0100 0x02000808 []
    [(0xFF02, 0x04), (0xFF08, 0x04), (0xFF09, 0x01)] = true := by decide
/-- V26. -/
theorem test_step_reserved_as_mov : changes 0x0100 0x000508C1 []
    [(0xFF02, 0x04), (0xFF08, 0x05)] = true := by decide
/-- V12. -/
theorem test_step_adc_word_lanes : changes 0x0100 0x000110CA [(0xFF10, 0xFF)]
    [(0xFF02, 0x04), (0xFF06, 0x08), (0xFF10, 0x00)] = true := by decide
/-- V13. -/
theorem test_step_sbc_word_lanes : changes 0x0100 0x000110CB [(0xFF11, 0x01)]
    [(0xFF02, 0x04), (0xFF10, 0xFF)] = true := by decide
/-- V21. -/
theorem test_step_xor_same_register : changes 0x0100 0x08000806 [(0xFF08, 0x41)]
    [(0xFF02, 0x04), (0xFF06, 0x08), (0xFF08, 0x00)] = true := by decide
/-- V22. -/
theorem test_step_rot_word_lanes : changes 0x0100 0x030110CF [(0xFF10, 0x81), (0xFF11, 0x81)]
    [(0xFF02, 0x04), (0xFF10, 0x03), (0xFF11, 0x0C)] = true := by decide
/-- V3. -/
theorem test_step_sr_write_keeps_high_bits : changes 0x0100 0x00F006C0 []
    [(0xFF02, 0x04), (0xFF06, 0xF4)] = true := by decide
/-- V6. -/
theorem test_step_register_255_wraps : changes 0x0100 0xABCDFFC8 []
    [(0x0000, 0xAB), (0xFF02, 0x04), (0xFF06, 0x04), (0xFFFF, 0xCD)] = true := by decide
/-- V7. -/
theorem test_step_reg_mem_wraps : changes 0x0100 0xFFFF0848 [(0xFF08, 0x11), (0xFF09, 0x22)]
    [(0x0000, 0x22), (0xFF02, 0x04), (0xFFFF, 0x11)] = true := by decide
/-- V10. -/
theorem test_step_pointer_reread : changes 0x0100 0x0C010C08 [(0xFF0D, 0x03), (0x0300, 0x10), (0x0301, 0x20), (0x0311, 0x77)]
    [(0xFF02, 0x04), (0xFF0C, 0x10), (0xFF0D, 0x77)] = true := by decide
/-- V14. -/
theorem test_step_skipped : changes 0x0100 0x005508F0 []
    [(0xFF02, 0x04)] = true := by decide
/-- V18. -/
theorem test_step_fetch_wraps : changes 0xFFFE 0x000108C0 []
    [(0xFF02, 0x02), (0xFF03, 0x00), (0xFF08, 0x01)] = true := by decide
/-- V28. -/
theorem test_step_lt_passes : changes 0x0100 0x000109E0 [(0xFF06, 0x04)]
    [(0xFF02, 0x04), (0xFF06, 0x00), (0xFF09, 0x01)] = true := by decide
/-- The example of R180. -/
theorem test_step_and : changes 0x0100 0x000F08C4 [(0xFF08, 0xF5)] [(0xFF02, 0x04), (0xFF08, 0x05)] = true := by decide
/-- The example of R181. -/
theorem test_step_or : changes 0x0100 0x008008C5 [(0xFF08, 0x01)]
    [(0xFF02, 0x04), (0xFF06, 0x04), (0xFF08, 0x81)] = true := by decide
/-- V29: the halt check comes before the fetch, and HALTED has no step. -/
theorem test_step_halts : step (start 0x0000 0x000108C0 []) = .next (start 0x0000 0x000108C0 []).halt ∧
    step (start 0x0000 0x000108C0 []).halt = .fault .halted := ⟨rfl, rfl⟩
/-- The table of section 2.3, row by row: SR = 00, 08, 04, 0C, F3. -/
theorem test_condition_table :
    [0x00, 0x08, 0x04, 0x0C, 0xF3].map (condPass .always) = [true, true, true, true, true] ∧
    [0x00, 0x08, 0x04, 0x0C, 0xF3].map (condPass .gt) = [true, false, false, false, true] ∧
    [0x00, 0x08, 0x04, 0x0C, 0xF3].map (condPass .lt) = [false, false, true, true, false] ∧
    [0x00, 0x08, 0x04, 0x0C, 0xF3].map (condPass .eq) = [false, true, false, true, false] ∧
    condPassWith false .gt 0x08 = true := by decide
/-- The accesses of R55 for a byte REG_REG instruction with the indirect flag, `MOV $08, *$0C` at 0x0100. -/
theorem test_accesses_in_order : cycleAccesses (start 0x0100 0x0C010800 [(0xFF0C, 0x00), (0xFF0D, 0x03)]) =
    [⟨.read, 0xFF02, 2⟩, ⟨.read, 0x0100, 4⟩, ⟨.write, 0xFF02, 2⟩, ⟨.read, 0xFF06, 1⟩, ⟨.read, 0xFF08, 1⟩,
      ⟨.read, 0xFF0C, 2⟩, ⟨.read, 0x0300, 1⟩, ⟨.write, 0xFF08, 1⟩, ⟨.read, 0xFF06, 1⟩, ⟨.write, 0xFF06, 1⟩] := by decide
/-- The first instruction after reset is the one stored by the host's interface. -/
theorem test_first_step_after_reset :
    step (State.reset.withFetchWord 32 0x000508C1) =
      exec (.reserved { size := .byte, cond := .always, mode := .immReg, reg := 0x08, operand16 := 0x0005 })
        (State.reset.withFetchWord 32 0x000508C1).advancePc := rfl

/-! ## The toolchain: rows of 95_test_vectors.md section 2.2 -/

theorem test_assemble_indirect : assemble "ADCW $10, *$0C".toList = .ok [0x0A, 0x10, 0x01, 0x0C] := by decide
theorem test_assemble_two_letter : assemble "ORW $08, $0A".toList = .ok [0x0D, 0x08, 0x00, 0x0A] := by decide
theorem test_assemble_lower_case : assemble "mov $09, $08".toList = .ok [0x00, 0x09, 0x00, 0x08] := by decide
theorem test_assemble_two_statements :
    assemble " ?LT XORB $09, $09\nMOVW $02,#$12 ".toList = .ok [0x26, 0x09, 0x00, 0x09, 0xC8, 0x02, 0x12, 0x00] := by
  decide
/-- The run over a text ends with this statement, kind and construct in its diagnostic (R103). -/
abbrev fails (text : String) (k : Nat) (e : AsmError) (c : Construct) : Prop :=
  assemble text.toList = .error { statement := k, failure := { error := e, construct := c } }

theorem test_assemble_bad_condition : fails "?ZZ MOV $01, $02" 0 (syntaxError "bad condition") .condition := by decide
theorem test_assemble_bad_mnemonic : fails "MUL $01, $02" 0 (syntaxError "bad mnemonic") .mnemonic := by decide
theorem test_assemble_no_comma : fails "MOV $01 $02" 0 (syntaxError "expected ','") .separator := by decide
theorem test_assemble_indirect_to_memory : fails "MOV $0010, *$04" 0 unsupportedMode .operandPair := by decide
theorem test_assemble_out_of_range : fails "MOV $01, #$10000" 0 .outOfRange .secondOperand := by decide
theorem test_assemble_second_statement_fails :
    fails "OR $08, #$80 MOV #$01, $02" 1 unsupportedMode .firstOperand := by decide
/-- An OutOfRange of the encoder is about the field it names (R74). -/
theorem test_encoder_failure_names_its_field :
    encodeParsed { op := 0, size := 0, cond := 0, mode := 4, reg := 0, operand16 := 0 } =
      .error { error := .outOfRange, construct := .field .mode } := by decide
theorem test_listing_reserved : listing (decode 0x000508C1) = ".word $000508C1".toList := by decide
theorem test_listing_indirect : listing (decode 0x0C01101A) = "?GT ADCW $10, *$0C".toList := by decide

/-! ## Witnesses: states and operands that meet the hypotheses of the statements -/

/-- A running machine at 0x0100 with N set in SR and nothing else. -/
def base : State := start 0x0100 0x00000000 [(0xFF06, 0x04)]

/-- Forms that the operations' statements range over: byte and word, P a plain register, P the byte SR, and a word P whose
high byte, then whose low byte, is SR. -/
def forms : List Fields :=
  [{ size := .byte, cond := .always, mode := .immReg, reg := 0x08, operand16 := 0x00FF },
    { size := .word, cond := .lt, mode := .memReg, reg := 0xFF, operand16 := 0xFFFF },
    { size := .byte, cond := .lt, mode := .regMem, reg := 0x08, operand16 := 0xFF06 },
    { size := .word, cond := .always, mode := .regReg, reg := 0x05, operand16 := 0x0801 },
    { size := .word, cond := .lt, mode := .immReg, reg := 0x06, operand16 := 0xF0F0 }]

/-- The clauses of ByteEffect and WordEffect that the forms fall under: where P is, against SR. -/
theorem witness_forms_cover_the_clauses :
    forms.map (fun f => (f.size, pAddr f 0 == srAddr, pAddr f 1 == srAddr)) =
      [(.byte, false, false), (.word, false, false), (.byte, true, false), (.word, false, true), (.word, true, false)] := by
  decide

theorem witness_MovCopiesQToP : ∀ f ∈ forms, condPass (Instr.mov f).fields.cond base.sr = true := by decide
theorem witness_ReservedCopiesQToP : ∀ f ∈ forms, condPass (Instr.reserved f).fields.cond base.sr = true := by decide
theorem witness_AdcAddsQToP : ∀ f ∈ forms, condPass (Instr.adc f).fields.cond base.sr = true := by decide
theorem witness_SbcSubtractsQFromP : ∀ f ∈ forms, condPass (Instr.sbc f).fields.cond base.sr = true := by decide
theorem witness_AndIntoP : ∀ f ∈ forms, condPass (Instr.and f).fields.cond base.sr = true := by decide
theorem witness_OrIntoP : ∀ f ∈ forms, condPass (Instr.or f).fields.cond base.sr = true := by decide
theorem witness_XorIntoP : ∀ f ∈ forms, condPass (Instr.xor f).fields.cond base.sr = true := by decide
theorem witness_RotRotatesPLeft : ∀ f ∈ forms, condPass (Instr.rot f).fields.cond base.sr = true := by decide

theorem witness_EncoderAcceptsExactlyWhatFits :
    (greatest.op < 8 ∧ greatest.size < 2 ∧ greatest.cond < 4 ∧ greatest.mode < 4 ∧ greatest.reg < 256 ∧
      greatest.operand16 < 65536) ∧
    encodeRecord { greatest with reg := 256 } = .error .reg ∧ 256 ≤ { greatest with reg := 256 }.reg := by decide

theorem witness_DontCareBitsChangeNothing :
    let f : Fields := { size := .byte, cond := .always, mode := .regReg, reg := 0x08, operand16 := 0x09FE }
    let g : Fields := { f with operand16 := 0x0900 }
    let f' : Fields := { f with mode := .immReg, operand16 := 0x1234 }
    let g' : Fields := { f with mode := .immReg, operand16 := 0x0034 }
    (f ≠ g ∧ f.mode = .regReg ∧ f.hi = g.hi ∧ f.ind = g.ind) ∧
      (f' ≠ g' ∧ f'.mode = .immReg ∧ f'.size = .byte ∧ f'.lo = g'.lo) := by decide

theorem witness_StepRunsTheDecodedInstruction : base.run = .running ∧ base.pc ≠ 0 := by decide

theorem witness_HaltCheckAtTheTopOfTheCycle :
    base.halt.run = .halted ∧
    ((start 0x0000 0x00000000 []).run = .running ∧ (start 0x0000 0x00000000 []).pc = 0) ∧
    (start 0x0001 0x00000000 []).pc ≠ 0 ∧
    step (start 0x0001 0x00000000 []) =
      .next (poke (start 0x0001 0x00000000 []) [(0xFF02, 0x05), (0xFF06, 0x08)]) :=
  ⟨by decide, by decide, by decide, rfl⟩

theorem witness_RunningMachineAlwaysSteps : base.run = .running := by decide

/-- `?EQ MOV $08, #$55` with Z clear. -/
theorem witness_FailedConditionOnlyAdvancesPc :
    let s := start 0xFFFC 0x005508F0 []
    s.run = .running ∧ s.pc ≠ 0 ∧ condPass (decode s.fetch).fields.cond s.sr = false := by decide

theorem witness_FlagsComeFromTheTurns : (forms.map (·.size)) = [.byte, .word, .byte, .word, .word] := by decide

theorem witness_ExecutedInstructionNeverSetsNAndZ :
    let i := ins .sbc .byte .always .immReg 0x08 0x0001
    condPass i.fields.cond base.sr = true ∧ exec i base = .next (poke base [(0xFF08, 0xFF), (0xFF06, 0x05)]) :=
  ⟨by decide, rfl⟩

theorem witness_StepKeepsNAndZExclusive :
    nzExclusive base = true ∧ step base = .next (poke base [(0xFF02, 0x04), (0xFF06, 0x08)]) :=
  ⟨by decide, rfl⟩

theorem witness_WriteToSrKeepsOnlyItsUpperBits :
    let i := ins .mov .byte .always .regMem 0x08 0xFF06
    let j := ins .mov .byte .always .immReg 0x06 0x00F0
    (i.fields.size = .byte ∧ pAddr i.fields 0 = srAddr ∧ condPass i.fields.cond base.sr = true) ∧
      (j.fields.size = .byte ∧ pAddr j.fields 0 = srAddr ∧ condPass j.fields.cond base.sr = true) := by decide

/-- Both clauses at the top of their ranges: operand16 and reg at their greatest, turn 1. -/
theorem witness_DestinationAddressOfATurn :
    let m : Fields := { size := .word, cond := .always, mode := .regMem, reg := 0x00, operand16 := 0xFFFF }
    let r : Fields := { size := .word, cond := .always, mode := .immReg, reg := 0xFF, operand16 := 0x0000 }
    (m.mode = .regMem ∧ (pAddr m 1).toNat = 0) ∧ (r.mode ≠ .regMem ∧ (pAddr r 1).toNat = 0) := by decide

theorem witness_SourceValueOfATurn :
    let f (mode : Mode) (operand16 : BitVec 16) : Fields :=
      { size := .word, cond := .always, mode := mode, reg := 0xFF, operand16 := operand16 }
    ((f .regReg 0xFF00).mode = .regReg ∧ (f .regReg 0xFF00).ind = false) ∧
    ((f .regReg 0xFF01).mode = .regReg ∧ (f .regReg 0xFF01).ind = true) ∧
    (f .regMem 0xFFFF).mode = .regMem ∧ (f .memReg 0xFFFF).mode = .memReg ∧ (f .immReg 0xFFFF).mode = .immReg ∧
    1 < 2 := by decide

/-- At both ends: register 8 to 9, and register 254 to 255, whose high byte is address 0. -/
theorem witness_WordMoveOverlappingByOnePropagates :
    let f (reg : BitVec 8) (operand16 : BitVec 16) : Fields :=
      { size := .word, cond := .always, mode := .regReg, reg := reg, operand16 := operand16 }
    ∀ g ∈ [f 0x09 0x0800, f 0xFF 0xFE00], g.size = .word ∧ g.mode = .regReg ∧ g.ind = false ∧
      g.reg.toNat = g.hi.toNat + 1 ∧ pAddr g 0 ≠ srAddr ∧ pAddr g 1 ≠ srAddr ∧ condPass g.cond base.sr = true := by
  decide

/-- `MOVW $0C, *$0C` and `MOVW $FF, *$FF`. -/
theorem witness_PointerIsReadAfreshInTurnOne :
    let f (reg : BitVec 8) (operand16 : BitVec 16) : Fields :=
      { size := .word, cond := .always, mode := .regReg, reg := reg, operand16 := operand16 }
    ∀ g ∈ [f 0x0C 0x0C01, f 0xFF 0xFF01], g.size = .word ∧ g.mode = .regReg ∧ g.ind = true ∧ g.reg = g.hi ∧
      pAddr g 0 ≠ srAddr ∧ pAddr g 1 ≠ srAddr ∧ condPass g.cond base.sr = true := by decide

theorem witness_WordOnRegister255WrapsToAddressZero : condPass .lt base.sr = true := by decide

/-- Two states that differ in the low byte of P alone. -/
theorem witness_HighLaneIgnoresTheLowLane :
    let i := ins .adc .word .always .immReg 0x10 0x0001
    let s₂ := base.write (pAddr i.fields 0) 0xFF
    (i.fields.size = .word ∧ i.fields.mode = .immReg ∧ pAddr i.fields 0 ≠ srAddr ∧ pAddr i.fields 1 ≠ srAddr ∧
      base ≠ s₂) ∧
    (∀ a, a ≠ pAddr i.fields 0 → base.read a = s₂.read a) ∧
    (∃ t, exec i base = .next t) ∧ ∃ t, exec i s₂ = .next t :=
  ⟨by decide, fun _ h => (State.read_write_ne base 0xFF h).symm, ⟨_, rfl⟩, ⟨_, rfl⟩⟩

/-- `?LT MOV $02, #$0000` and `MOV $02, #$FFFF` with N set. -/
theorem witness_ImmediateMoveToPcJumps :
    let s := start 0x0100 0x000002E8 [(0xFF06, 0x04)]
    let t := start 0xFFFF 0xFFFF02C8 []
    (s.run = .running ∧ s.pc ≠ 0 ∧ decode s.fetch = ins .mov .word .lt .immReg 0x02 0x0000 ∧
      condPass .lt s.sr = true) ∧
    (t.run = .running ∧ t.pc ≠ 0 ∧ decode t.fetch = ins .mov .word .always .immReg 0x02 0xFFFF ∧
      condPass .always t.sr = true) := by decide

/-- V16: at the last word of a page. -/
theorem witness_ByteMoveToPcStaysInTheAdvancedPage :
    let s := start 0x01FC 0x002002C0 []
    s.run = .running ∧ s.pc ≠ 0 ∧ decode s.fetch = ins .mov .byte .always .immReg 0x02 0x0020 ∧
      condPass .always s.sr = true := by decide

/-- V2, and the registers next to those the statement leaves out: 2, 4, 7, 255. -/
theorem witness_PcReadsAsTheAdvancedValue :
    ∀ r ∈ [0x08, 0x02, 0x04, 0x07, 0xFF],
      let s := start 0x0100 (0x02000008 ||| (BitVec.ofNat 32 r <<< 8)) []
      s.run = .running ∧ s.pc ≠ 0 ∧ decode s.fetch = ins .mov .word .always .regReg (BitVec.ofNat 8 r) 0x0200 ∧
        condPass .always s.sr = true ∧ BitVec.ofNat 8 r ≠ 3 ∧ BitVec.ofNat 8 r ≠ 5 ∧ BitVec.ofNat 8 r ≠ 6 := by
  decide

theorem witness_RegistersAreMemoryBytes : (255 < 256) ∧ regAddr 255 = 0xFFFF ∧ regAddr 0 = 0xFF00 := by decide

theorem witness_RotateMovesEachBit : (7 < 8) ∧ (1 ≤ 7 ∧ 7 ≤ 7) := by decide

theorem witness_FlagWriteKeepsTheUpperBits : (4 ≤ 7) ∧ (0xFF05 : Addr) ≠ 0xFF06 := by decide

theorem witness_CanonicalMemoriesReadApart :
    Memory.wf [(0x0000, 0xAB), (0xFFFF, 0xCD)] ∧
      ∀ a, Memory.read [(0x0000, 0xAB), (0xFFFF, 0xCD)] a = Memory.read [(0x0000, 0xAB), (0xFFFF, 0xCD)] a :=
  ⟨by decide, fun _ => rfl⟩

theorem witness_StepKeepsMemoryCanonical :
    base.mem.wf ∧ step base = .next (poke base [(0xFF02, 0x04), (0xFF06, 0x08)]) :=
  ⟨by decide, rfl⟩

theorem witness_StepChangesOnlyTheBytesItWrites :
    step base = .next (poke base [(0xFF02, 0x04), (0xFF06, 0x08)]) ∧
      ∀ x ∈ cycleAccesses base, x.kind = .write → x.covers 0xFF07 = false :=
  ⟨rfl, by decide⟩

/-- Two machines that differ at 0x0500, which the first one's cycle does not read. -/
theorem witness_StepDependsOnlyOnTheBytesItReads :
    let s₂ := base.write 0x0500 0xFF
    (base.run = .running ∧ s₂.run = .running ∧ base ≠ s₂) ∧
    (∀ x ∈ cycleAccesses base, x.kind = .read → ∀ a, x.covers a = true → base.read a = s₂.read a) ∧
    (∃ t, step base = .next t) ∧ ∃ t, step s₂ = .next t := by
  refine ⟨by decide, fun x hx _ a ha => ?_, ⟨_, rfl⟩, ⟨_, rfl⟩⟩
  have hout : ∀ x ∈ cycleAccesses base, x.covers 0x0500 = false := by decide
  refine (State.read_write_ne base 0xFF fun h => ?_).symm
  rw [h, hout x hx] at ha
  exact absurd ha (by decide)

theorem witness_LoadPlacesTheProgram :
    (([0x00] : List Byte).length % 4 ≠ 0) ∧ (65536 < (List.replicate 65540 (0x00 : Byte)).length) ∧
    (([0xC8, 0x02, 0x34, 0x12] : List Byte).length % 4 = 0 ∧ ([0xC8, 0x02, 0x34, 0x12] : List Byte).length ≤ 65536) ∧
    ((0x0100 : Addr) + BitVec.ofNat 16 3 ≠ 0xFF02) ∧ ((0x0100 : Addr) + BitVec.ofNat 16 3 ≠ 0xFF03) :=
  ⟨by decide, by rw [List.length_replicate]; decide, by decide, by decide, by decide⟩

theorem witness_OnlyHaltedStopsARun : ReachedFrom base (poke base [(0xFF02, 0x04), (0xFF06, 0x08)]) :=
  .more .start rfl

theorem witness_TwoByteValuesAreLittleEndian : (0x0001 : Addr) ≠ 0xFFFF ∧ (0x0001 : Addr) ≠ 0xFFFF + 1 := by decide

theorem witness_ResetIsTheLoadOfNoProgram : (0xFF04 : Addr) ≠ 0xFF02 ∧ (0xFF04 : Addr) ≠ 0xFF03 := by decide

/-- A machine at PC = 0 ends its run in one step. -/
theorem witness_RunResultIsUnique :
    let s : State := { mem := [], run := .running }
    HaltsWith s [] ∧ runResult 1 s = some [] ∧ 1 ≤ 2 :=
  ⟨⟨1, rfl⟩, rfl, by decide⟩

theorem witness_ListingReassembles :
    (decode 0xFFFFFFFF).assemblable = true ∧ (decode 0x0C01101A).assemblable = true ∧
      (decode 0x00FF08C6).assemblable = true ∧ (decode 0x00000040).assemblable = true := by decide

theorem witness_AssembledTextIsWholeWords : assemble "OR $08, #$80".toList = .ok [0xC5, 0x08, 0x80, 0x00] := by decide

/-- A failure after one whole statement, and one in the first statement. -/
theorem witness_FailingStatementAbortsTheRun :
    (AssemblesUpTo "OR $08, #$80 MUL $01, $02".toList 1 [0xC5, 0x08, 0x80, 0x00] " MUL $01, $02".toList ∧
        1 < 2 ∧ skipSpace " MUL $01, $02".toList ≠ [] ∧
        assembleStatement (skipSpace " MUL $01, $02".toList) =
          .error { error := syntaxError "bad mnemonic", construct := .mnemonic }) ∧
      (AssemblesUpTo "MOV".toList 0 [] "MOV".toList ∧ 0 < 1 ∧ skipSpace "MOV".toList ≠ [] ∧
        assembleStatement (skipSpace "MOV".toList) =
          .error { error := syntaxError "expected '$'", construct := .firstOperand }) :=
  ⟨⟨.more (word := [0xC5, 0x08, 0x80, 0x00]) (by decide) (by decide) (.none _), by decide, by decide, by decide⟩,
    ⟨.none _, by decide, by decide, by decide⟩⟩

/-- Two digits and three, the greatest value and the one above it, at the end of the text and before a comma. -/
theorem witness_NumberLiteralsCountTheirDigits :
    (0 < 2 ∧ 0xFF < 16 ^ 2 ∧ ([] : List Char).head?.bind hexValue = none ∧ 0xFF ≤ 0xFFFF) ∧
    (0 < 4 ∧ 0xFFFF < 16 ^ 4 ∧ [','].head?.bind hexValue = none ∧ 0xFFFF ≤ 0xFFFF) ∧
    (0 < 5 ∧ 0x10000 < 16 ^ 5 ∧ [','].head?.bind hexValue = none ∧ 0xFFFF < 0x10000) := by
  have h : [','].head?.bind hexValue = none := by decide
  exact ⟨⟨by norm_num, by norm_num, rfl, by norm_num⟩, ⟨by norm_num, by norm_num, h, by norm_num⟩,
    ⟨by norm_num, by norm_num, h, by norm_num⟩⟩

end Sys2Proof.Tests
end

/-! ## Registers as bytes of memory (10_state.md R21, R24) -/

namespace Sys2Proof.Machine

theorem regAddr_eq_ofNat (i : Nat) : regAddr i = BitVec.ofNat 16 (0xFF00 + i) :=
  (BitVec.ofNat_add 0xFF00 i).symm

/-- The 256 registers end at 0xFFFF, so an index below 256 does not wrap. -/
theorem toNat_regAddr {i : Nat} (hi : i < 256) : (regAddr i).toNat = 0xFF00 + i := by
  rw [regAddr_eq_ofNat, BitVec.toNat_ofNat]
  omega

@[simp] theorem State.reg_setReg_same (s : State) (i : Nat) (v : Byte) : (s.setReg i v).reg i = v :=
  State.read_write_same s (regAddr i) v

theorem State.read_setReg_ne (s : State) (i : Nat) (v : Byte) {a : Addr} (h : a ≠ regAddr i) :
    (s.setReg i v).read a = s.read a :=
  State.read_write_ne s v h

/-- Settles O39: a register is accessed at `regAddr`, with the laws of any byte there, no index apart. -/
theorem registersAreMemoryBytes : Obligations.RegistersAreMemoryBytes := by
  intro s i v hi
  rw [← regAddr_eq_ofNat]
  refine ⟨rfl, State.reg_setReg_same s i v, State.read_write_same s (regAddr i) v, fun a ha => ?_⟩
  have hne : a ≠ regAddr i := fun h => ha (h ▸ toNat_regAddr hi)
  exact State.read_setReg_ne s i v hne

end Sys2Proof.Machine

/-! ## The outputs of the decoder (30_encoding.md R72): the codes, then one equation per field -/

namespace Sys2Proof

@[simp] theorem Size.code_ofCode (c : BitVec 1) : (Size.ofCode c).code = c := by
  revert c; decide

@[simp] theorem Cond.code_ofCode (c : BitVec 2) : (Cond.ofCode c).code = c := by
  revert c; decide

@[simp] theorem Mode.code_ofCode (c : BitVec 2) : (Mode.ofCode c).code = c := by
  revert c; decide

@[simp] theorem Op.code_ofCode (c : BitVec 3) : (Op.ofCode c).code = c := by
  revert c; decide

@[simp] theorem Instr.op_ofOp (o : Op) (f : Fields) : (Instr.ofOp o f).op = o := by
  cases o <;> rfl

@[simp] theorem Instr.fields_ofOp (o : Op) (f : Fields) : (Instr.ofOp o f).fields = f := by
  cases o <;> rfl

@[simp] theorem decode_op_code (w : Word) : (decode w).op.code = w.extractLsb' 0 3 := by
  simp [decode]

@[simp] theorem decode_size_code (w : Word) : (decode w).fields.size.code = w.extractLsb' 3 1 := by
  simp [decode]

@[simp] theorem decode_cond_code (w : Word) : (decode w).fields.cond.code = w.extractLsb' 4 2 := by
  simp [decode]

@[simp] theorem decode_mode_code (w : Word) : (decode w).fields.mode.code = w.extractLsb' 6 2 := by
  simp [decode]

@[simp] theorem decode_reg (w : Word) : (decode w).fields.reg = w.extractLsb' 8 8 := by
  simp [decode]

@[simp] theorem decode_operand16 (w : Word) : (decode w).fields.operand16 = w.extractLsb' 16 16 := by
  simp [decode]

/-- A slice of a bit vector, by arithmetic on its value. -/
theorem toNat_extractLsb'_eq_div_mod {n : Nat} (w : BitVec n) (start len : Nat) :
    (w.extractLsb' start len).toNat = w.toNat / 2 ^ start % 2 ^ len := by
  rw [BitVec.extractLsb'_toNat, Nat.shiftRight_eq_div_pow]

/-! ## The derived outputs, from the fields -/

theorem Fields.toNat_lo (f : Fields) : f.lo.toNat = f.operand16.toNat % 256 := by
  simp [Fields.lo]

theorem Fields.toNat_hi (f : Fields) : f.hi.toNat = f.operand16.toNat / 256 := by
  rw [Fields.hi, toNat_extractLsb'_eq_div_mod]
  omega

/-- `ind` holds in REG_REG mode alone, whose code is 0, and there it is the low bit of operand16 (R79). -/
theorem Fields.ind_eq_code (f : Fields) :
    f.ind = (f.mode.code.toNat == 0 && f.operand16.toNat % 2 == 1) := by
  cases hm : f.mode with
  | regReg =>
    have hbit : f.operand16.getLsbD 0 = (f.operand16.toNat % 2 == 1) := by
      rw [BitVec.getLsbD, Nat.testBit_zero]
      rfl
    simpa [Fields.ind, hm, Mode.code] using hbit
  | regMem | memReg | immReg => simp [Fields.ind, hm, Mode.code]

theorem Fields.nturns_eq_code (f : Fields) : f.nturns = 1 + f.size.code.toNat := by
  cases h : f.size <;> simp [Fields.nturns, h, Size.code]

/-! ## The outputs as arithmetic on the word -/

theorem toNat_decode_size (w : Word) : (decode w).fields.size.code.toNat = w.toNat / 8 % 2 := by
  rw [decode_size_code]
  exact toNat_extractLsb'_eq_div_mod w 3 1

theorem toNat_decode_mode (w : Word) : (decode w).fields.mode.code.toNat = w.toNat / 64 % 4 := by
  rw [decode_mode_code]
  exact toNat_extractLsb'_eq_div_mod w 6 2

/-- operand16 is the whole upper half of the word: nothing stands above it. -/
theorem toNat_decode_operand16 (w : Word) : (decode w).fields.operand16.toNat = w.toNat / 65536 := by
  rw [decode_operand16, toNat_extractLsb'_eq_div_mod]
  omega

/-- Settles O4: the six fields are slices of the word, and the four derived outputs are functions of the fields. -/
theorem decoderOutputsAreTheWordsSlices : Obligations.DecoderOutputsAreTheWordsSlices := by
  intro w d
  have hop : d.op.code.toNat = w.toNat % 8 := by
    rw [decode_op_code, ← Nat.div_one w.toNat]
    exact toNat_extractLsb'_eq_div_mod w 0 3
  have hcond : d.fields.cond.code.toNat = w.toNat / 16 % 4 := by
    rw [decode_cond_code]
    exact toNat_extractLsb'_eq_div_mod w 4 2
  have hreg : d.fields.reg.toNat = w.toNat / 256 % 256 := by
    rw [decode_reg]
    exact toNat_extractLsb'_eq_div_mod w 8 8
  have hlo : d.fields.lo.toNat = w.toNat / 65536 % 256 := by
    rw [Fields.toNat_lo, toNat_decode_operand16]
  have hhi : d.fields.hi.toNat = w.toNat / 16777216 := by
    rw [Fields.toNat_hi, toNat_decode_operand16, Nat.div_div_eq_div_mul]
  have hind : d.fields.ind = (w.toNat / 64 % 4 == 0 && w.toNat / 65536 % 2 == 1) := by
    rw [Fields.ind_eq_code, toNat_decode_mode, toNat_decode_operand16]
  have hnturns : d.fields.nturns = 1 + w.toNat / 8 % 2 := by
    rw [Fields.nturns_eq_code, toNat_decode_size]
  exact ⟨hop, toNat_decode_size w, hcond, toNat_decode_mode w, hreg, toNat_decode_operand16 w, hlo, hhi, hind, hnturns⟩

end Sys2Proof

/-! ## One turn of the assembler's driver (30_encoding.md R101, R103), and texts of one statement -/

namespace Sys2Proof.Machine

/-- A run ends, with no more bytes, where only white space is left (R101). -/
theorem assembleWith_of_skipSpace_nil (fuel k : Nat) {cs : List Char} (h : skipSpace cs = []) :
    assembleWith (fuel + 1) k cs = .ok [] := by
  simp [assembleWith, h]

/-- The bytes of a statement that assembles stand before those of the text after it (R101). -/
theorem assembleWith_of_statement_ok (fuel k : Nat) {cs after : List Char} {bytes : List Byte}
    (hcs : skipSpace cs ≠ []) (h : assembleStatement (skipSpace cs) = .ok (bytes, after)) :
    assembleWith (fuel + 1) k cs = (assembleWith fuel (k + 1) after).map (bytes ++ ·) := by
  obtain ⟨c, rest, hc⟩ := List.exists_cons_of_ne_nil hcs
  rw [hc] at h
  simp [assembleWith, hc, h]

/-- A statement that fails ends the run with its own number and failure (R103). -/
theorem assembleWith_of_statement_error (fuel k : Nat) {cs : List Char} {e : Failure}
    (hcs : skipSpace cs ≠ []) (h : assembleStatement (skipSpace cs) = .error e) :
    assembleWith (fuel + 1) k cs = .error { statement := k, failure := e } := by
  obtain ⟨c, rest, hc⟩ := List.exists_cons_of_ne_nil hcs
  rw [hc] at h
  simp [assembleWith, hc, h]

/-- A statement whose record fits assembles to the bytes of the record's word (R100, R101). -/
theorem assembleStatement_of_parse {cs rest : List Char} {r : Record} {w : Word}
    (hp : parseStatement cs = .ok (r, rest)) (he : encodeRecord r = .ok w) :
    assembleStatement cs = .ok (wordBytes w, rest) := by
  simp [assembleStatement, encodeParsed, hp, he, bind, Except.bind, Except.mapError, pure, Except.pure]

/-- A statement that does not parse fails as its parse does. -/
theorem assembleStatement_of_parse_error {cs : List Char} {e : Failure} (hp : parseStatement cs = .error e) :
    assembleStatement cs = .error e := by
  simp [assembleStatement, hp, bind, Except.bind]

/-- The empty text holds no statement. -/
theorem parseStatement_nil_ne_ok (p : Record × List Char) : parseStatement [] ≠ .ok p := by
  simp [parseStatement, parseCond, parseMnemonic, blame, Except.mapError, bind, Except.bind]

/-- A text of one statement alone assembles to the four bytes of its record's word. -/
theorem assemble_of_parse {cs rest : List Char} {r : Record} {w : Word}
    (hp : parseStatement (skipSpace cs) = .ok (r, rest)) (hrest : skipSpace rest = []) (he : encodeRecord r = .ok w) :
    assemble cs = .ok (wordBytes w) := by
  have hcs : skipSpace cs ≠ [] := fun h => parseStatement_nil_ne_ok _ (h ▸ hp)
  have hne : cs ≠ [] := fun h => hcs (by rw [h]; rfl)
  obtain ⟨n, hn⟩ := Nat.exists_eq_succ_of_ne_zero (mt List.length_eq_zero_iff.mp hne)
  rw [assemble, assembleWith_of_statement_ok _ _ hcs (assembleStatement_of_parse hp he), hn,
    assembleWith_of_skipSpace_nil _ _ hrest]
  simp [Except.map]

/-- A text whose first statement does not parse fails as that parse does. -/
theorem assemble_of_parse_error {cs : List Char} {e : Failure} (hcs : skipSpace cs ≠ [])
    (hp : parseStatement (skipSpace cs) = .error e) :
    assemble cs = .error { statement := 0, failure := e } :=
  assembleWith_of_statement_error _ _ hcs (assembleStatement_of_parse_error hp)

/-! ## The worked encodings of R105, each from its text to the record, and to the word the rule gives -/

/-- The immediate of four digits forces size 1 (R98). -/
theorem assemble_spec_immediate_word : assemble "MOV $02, #$1234".toList = .ok [0xC8, 0x02, 0x34, 0x12] :=
  assemble_of_parse (r := { op := 0, size := 1, cond := 0, mode := 3, reg := 0x02, operand16 := 0x1234 })
    (rest := []) (w := 0x123402C8) (by decide) rfl (by decide)

/-- The source register stands in hi (R97). -/
theorem assemble_spec_conditional_add : assemble "?GT ADC $01, $02".toList = .ok [0x12, 0x01, 0x00, 0x02] :=
  assemble_of_parse (r := { op := 2, size := 0, cond := 1, mode := 0, reg := 0x01, operand16 := 0x0200 })
    (rest := []) (w := 0x02000112) (by decide) rfl (by decide)

/-- A first operand of four digits is a memory address, so the mode is REG_MEM (R97). -/
theorem assemble_spec_store : assemble "MOV $0010, $03".toList = .ok [0x40, 0x03, 0x10, 0x00] :=
  assemble_of_parse (r := { op := 0, size := 0, cond := 0, mode := 1, reg := 0x03, operand16 := 0x0010 })
    (rest := []) (w := 0x00100340) (by decide) rfl (by decide)

/-- An immediate is no destination, and is refused as the first operand (R95). -/
theorem assemble_spec_immediate_destination :
    assemble "MOV #$01, $02".toList =
      .error { statement := 0, failure := { error := unsupportedMode, construct := .firstOperand } } :=
  assemble_of_parse_error (by decide) (by decide)

/-- Both operands parse, and no mode has two memory addresses (R97). -/
theorem assemble_spec_memory_to_memory :
    assemble "MOV $0010, $0020".toList =
      .error { statement := 0, failure := { error := unsupportedMode, construct := .operandPair } } :=
  assemble_of_parse_error (by decide) (by decide)

/-- Settles O53: the five worked encodings of R105. -/
theorem specStatementsAssemble : Obligations.SpecStatementsAssemble :=
  ⟨assemble_spec_immediate_word, assemble_spec_conditional_add, assemble_spec_store,
    ⟨_, assemble_spec_immediate_destination, rfl⟩, ⟨_, assemble_spec_memory_to_memory, rfl⟩⟩

end Sys2Proof.Machine

/-! ## The cycle, from the halt check to the flag values (40_cycle.md R110 to R120) -/

namespace Sys2Proof.Machine

/-! ### The gate (R114, R115) -/

theorem condPassWith_gt_iff (strict : Bool) (sr : Byte) :
    condPassWith strict .gt sr = true ↔ srN sr = false ∧ (strict = true → srZ sr = false) := by
  cases strict <;> simp [condPassWith]

/-- Settles O11: one equation per condition, of which GT's alone looks at GT_STRICT. -/
theorem conditionGateFunction : Obligations.ConditionGateFunction :=
  ⟨fun strict sr => ⟨rfl, condPassWith_gt_iff strict sr, Iff.rfl, Iff.rfl⟩, fun _ _ => rfl⟩

theorem exec_skip {i : Instr} {s : State} (h : condPass i.fields.cond s.sr = false) : exec i s = .next s := by
  rw [exec_eq_execGated]
  exact execGated_skip _ _ _ h

/-- No instruction halts: the run state is the step's alone to change (R110). -/
theorem exec_next_run {i : Instr} {s t : State} (h : exec i s = .next t) : t.run = s.run := by
  rw [exec_eq_execGated] at h
  obtain ⟨-, rfl⟩ | ⟨-, rfl⟩ := execGated_next h
  · exact runTurns_run _ _ s
  · rfl

/-! ### The halt check, the fetch and the PC advance (R110 to R112) -/

/-- Settles O8: each clause is one branch of the step, and past the halt check `exec` keeps the run state. -/
theorem haltCheckAtTheTopOfTheCycle : Obligations.HaltCheckAtTheTopOfTheCycle := by
  refine ⟨fun s t hhalted hstep => ?_, fun s hrun hpc => step_pc_zero hrun hpc, fun s t hpc hstep => ?_⟩
  · simp [step_halted hhalted] at hstep
  · obtain ⟨hrun, ⟨hzero, -⟩ | ⟨-, hexec⟩⟩ := step_next hstep
    · exact absurd hzero hpc
    · rw [exec_next_run hexec, State.setPc_run, hrun]

/-- Settles O7: past the halt check a step is `exec` after the PC write, which changes the two bytes of PC alone. -/
theorem stepRunsTheDecodedInstruction : Obligations.StepRunsTheDecodedInstruction := by
  intro s hrun hpc
  refine ⟨step_exec hrun hpc, hrun, State.setPc_pc s _, fun a h0 h1 => ?_, rfl⟩
  exact State.read_setPc_ne s _ h0 h1

/-- A cycle whose condition fails ends after the PC advance, which leaves SR, and so the condition, as it was (R115). -/
theorem step_skip {s : State} (hrun : s.run = .running) (hpc : s.pc ≠ 0)
    (hcond : condPass (decode s.fetch).fields.cond s.sr = false) : step s = .next (s.setPc (s.pc + 4)) := by
  rw [step_exec hrun hpc]
  apply exec_skip
  rwa [State.setPc_sr]

/-- Settles O12: the step is the PC write alone. -/
theorem failedConditionOnlyAdvancesPc : Obligations.FailedConditionOnlyAdvancesPc := by
  intro s hrun hpc hcond
  refine ⟨s.setPc (s.pc + 4), step_skip hrun hpc hcond, hrun, State.setPc_pc s _, State.setPc_sr s _,
    fun a h0 h1 => ?_⟩
  exact State.read_setPc_ne s _ h0 h1

/-! ### The flag values (R120) -/

/-- N is the sign of the result byte. -/
theorem flagsOf_eq (allZero : Bool) (last : AluOut) :
    flagsOf allZero last = { z := allZero, n := last.r.msb, v := last.v, c := last.c } := by
  rw [BitVec.msb_eq_getLsbD_last]
  rfl

theorem turns_byte (alu : Byte → Byte → AluOut) {f : Fields} (s : State) (hsize : f.size = .byte) :
    turns alu f s =
      ((turn alu f 0 s).1, flagsOf ((turn alu f 0 s).2.r == 0) (turn alu f 0 s).2) := by
  simp only [turns, hsize]

theorem turns_word (alu : Byte → Byte → AluOut) {f : Fields} (s : State) (hsize : f.size = .word) :
    let a := turn alu f 0 s
    let b := turn alu f 1 a.1
    turns alu f s = (b.1, flagsOf (a.2.r == 0 && b.2.r == 0) b.2) := by
  simp only [turns, hsize]

/-- Settles O13: the flags are those of the last turn's output, with Z the test of every result byte. -/
theorem flagsComeFromTheTurns : Obligations.FlagsComeFromTheTurns := by
  intro alu f s a b
  refine ⟨fun hsize => ?_, fun hsize => ?_⟩
  · rw [turns_byte alu s hsize, flagsOf_eq, beq_eq_decide]
  · rw [turns_word alu s hsize, flagsOf_eq, beq_eq_decide, beq_eq_decide, Bool.decide_and]

end Sys2Proof.Machine

/-! ## The operand resolver, one equation per mode (41_operand_resolver.md R141 to R146) -/

namespace Sys2Proof.Machine

/-! ### The address of P (R141) -/

theorem pAddr_regMem {f : Fields} (t : Nat) (hmode : f.mode = .regMem) :
    pAddr f t = f.operand16 + BitVec.ofNat 16 t := by
  rw [pAddr, hmode]

theorem pAddr_of_ne_regMem {f : Fields} (t : Nat) (hmode : f.mode ≠ .regMem) :
    pAddr f t = regAddr (f.reg.toNat + t) := by
  cases hm : f.mode with
  | regMem => exact absurd hm hmode
  | regReg | memReg | immReg => rw [pAddr, hm]

/-- Settles O18: both kinds of address are sums of 16-bit addresses, and so wrap at 2^16. -/
theorem destinationAddressOfATurn : Obligations.DestinationAddressOfATurn := by
  intro f t
  refine ⟨fun hmode => ?_, fun hmode => ?_⟩
  · rw [pAddr_regMem t hmode, BitVec.toNat_add, BitVec.toNat_ofNat, Nat.add_mod_mod]
  · rw [pAddr_of_ne_regMem t hmode, regAddr_eq_ofNat, BitVec.toNat_ofNat, ← Nat.add_assoc]

/-! ### The value of Q (R142 to R146) -/

theorem qValue_register {f : Fields} (t : Nat) (s : State) (hmode : f.mode = .regReg) (hind : f.ind = false) :
    qValue f t s = s.read (regAddr (f.hi.toNat + t)) := by
  simp [qValue, qAddr, hmode, hind]

theorem qValue_indirect {f : Fields} (t : Nat) (s : State) (hmode : f.mode = .regReg) (hind : f.ind = true) :
    qValue f t s = s.read (pointer f s + BitVec.ofNat 16 t) := by
  simp [qValue, qAddr, hmode, hind]

theorem qValue_regMem {f : Fields} (t : Nat) (s : State) (hmode : f.mode = .regMem) :
    qValue f t s = s.read (regAddr (f.reg.toNat + t)) := by
  simp only [qValue, qAddr, hmode]

theorem qValue_memReg {f : Fields} (t : Nat) (s : State) (hmode : f.mode = .memReg) :
    qValue f t s = s.read (f.operand16 + BitVec.ofNat 16 t) := by
  simp only [qValue, qAddr, hmode]

theorem qValue_immReg {f : Fields} (t : Nat) (s : State) (hmode : f.mode = .immReg) :
    qValue f t s = immByte f t := by
  simp only [qValue, qAddr, hmode]

theorem append_eq_ofNat (high low : Byte) : high ++ low = BitVec.ofNat 16 (low.toNat + 256 * high.toNat) := by
  apply BitVec.eq_of_toNat_eq
  rw [BitVec.toNat_append, ← Nat.shiftLeft_add_eq_or_of_lt low.isLt, Nat.shiftLeft_eq, BitVec.toNat_ofNat]
  omega

theorem regAddr_succ (i : Nat) : regAddr i + 1 = regAddr (i + 1) := by
  rw [regAddr_eq_ofNat, regAddr_eq_ofNat, ← Nat.add_assoc, BitVec.ofNat_add _ 1]
  rfl

/-- The pointer is little-endian in registers hi and hi + 1, the second of which wraps to address 0 after register 255
(R143). -/
theorem pointer_eq_ofNat (f : Fields) (s : State) :
    pointer f s =
      BitVec.ofNat 16 ((s.reg f.hi.toNat).toNat + 256 * (s.reg (f.hi.toNat + 1)).toNat) := by
  have hbytes : pointer f s = s.read (regAddr f.hi.toNat + 1) ++ s.reg f.hi.toNat := rfl
  rw [hbytes, regAddr_succ]
  exact append_eq_ofNat _ _

/-- The immediate bytes are the base-256 digits of operand16 (R146). -/
theorem toNat_immByte (f : Fields) {t : Nat} (ht : t < 2) :
    (immByte f t).toNat = f.operand16.toNat / 256 ^ t % 256 := by
  have hlo : (immByte f 0).toNat = f.operand16.toNat % 256 := f.toNat_lo
  have hhi : (immByte f 1).toNat = f.operand16.toNat / 256 := f.toNat_hi
  have hword := f.operand16.isLt
  interval_cases t <;> omega

/-- Settles O19: the equation of each mode, with every address as the 16-bit value of a sum. -/
theorem sourceValueOfATurn : Obligations.SourceValueOfATurn := by
  intro f s t ht
  refine ⟨fun hmode hind => ?_, fun hmode hind => ?_, fun hmode => ?_, fun hmode => ?_, fun hmode => ?_⟩
  · rw [qValue_register t s hmode hind, regAddr_eq_ofNat, Nat.add_assoc]
  · rw [qValue_indirect t s hmode hind, pointer_eq_ofNat, ← BitVec.ofNat_add, State.reg, State.reg,
      regAddr_eq_ofNat, regAddr_eq_ofNat, Nat.add_assoc 0xFF00]
  · rw [qValue_regMem t s hmode, regAddr_eq_ofNat, Nat.add_assoc]
  · rw [qValue_memReg t s hmode, BitVec.ofNat_add, BitVec.ofNat_toNat, BitVec.setWidth_eq]
  · rw [qValue_immReg t s hmode, toNat_immByte f ht]

end Sys2Proof.Machine

/-! ## MOV and the reserved operation (42_move.md R160, R161) -/

namespace Sys2Proof.Machine

/-! ### From an ALU function to what its instruction does -/

theorem exec_pass {i : Instr} {s : State} (h : condPass i.fields.cond s.sr = true) :
    exec i s = .next (runTurns (aluOf i.op) i.fields s) := by
  rw [exec_eq_execGated]
  exact execGated_pass _ _ _ h

/-- An operation does, turn by turn, what its ALU function computes: the effect of any instruction, in every form, follows
from equations for the three outputs of R117. -/
theorem runsAs_of_aluOf {i : Instr} {r : Byte → Byte → Byte} {c v : Byte → Byte → Bool}
    (halu : ∀ p q, aluOf i.op p q = { r := r p q, c := c p q, v := v p q }) : RunsAs i r c v := by
  intro s hpass
  refine ⟨_, exec_pass hpass, ?_⟩
  rw [funext₂ halu]
  exact ⟨runTurns_byteEffect _ i.fields s, runTurns_wordEffect _ i.fields s⟩

/-! ### The two ALU functions -/

theorem aluMov_eq (p q : Byte) : aluMov p q = { r := q, c := false, v := false } := rfl

theorem aluReserved_eq_aluMov : aluReserved = aluMov := rfl

/-- Settles O25: the two arms are one gate over one ALU function. -/
theorem reservedExecutesAsMov : Obligations.ReservedExecutesAsMov := by
  intro f s
  calc exec (.reserved f) s
    _ = execGated aluReserved f s := exec_eq_execGated (.reserved f) s
    _ = execGated aluMov f s := by rw [aluReserved_eq_aluMov]
    _ = exec (.mov f) s := (exec_eq_execGated (.mov f) s).symm

/-- Settles O23: MOV's ALU function answers Q with C and V clear. -/
theorem movCopiesQToP : Obligations.MovCopiesQToP :=
  fun _ => runsAs_of_aluOf aluMov_eq

/-- Settles O24: the reserved operation completes with the outputs of MOV's ALU function. -/
theorem reservedCopiesQToP : Obligations.ReservedCopiesQToP :=
  fun _ => runsAs_of_aluOf fun p q => by
    rw [Instr.op, aluOf, aluReserved_eq_aluMov, aluMov_eq]

end Sys2Proof.Machine

/-! ## ADC and SBC (43_arithmetic.md R170, R171) -/

namespace Sys2Proof.Machine

/-! ### The rules' terms, on bytes -/

/-- The bit p[7] of a rule is the sign of the byte. -/
theorem getLsbD_seven_eq_msb (b : Byte) : b.getLsbD 7 = b.msb :=
  (BitVec.msb_eq_getLsbD_last b).symm

/-- The arithmetic of a rule is on naturals, that of an ALU function on bytes: a byte is the rule's result where it has its
value modulo 256. -/
theorem eq_ofNat_mod_of_toNat {b : Byte} {n : Nat} (h : b.toNat = n % 256) : b = BitVec.ofNat 8 (n % 256) :=
  BitVec.eq_of_toNat_eq (by rw [h, BitVec.toNat_ofNat, Nat.mod_mod])

/-! ### ADC's ALU function (R170) -/

/-- Nine bits hold the sum of two bytes exactly. -/
theorem toNat_zeroExtended_sum (p q : Byte) : (p.setWidth 9 + q.setWidth 9 : BitVec 9).toNat = p.toNat + q.toNat := by
  have hp := p.isLt
  have hq := q.isLt
  simp only [BitVec.toNat_add, BitVec.toNat_setWidth]
  omega

theorem aluAdc_r (p q : Byte) : (aluAdc p q).r = BitVec.ofNat 8 ((p.toNat + q.toNat) % 256) := by
  apply eq_ofNat_mod_of_toNat
  rw [aluAdc, BitVec.toNat_setWidth, toNat_zeroExtended_sum]

/-- Bit 8 of the exact sum, which is below 512, is set from 256 on. -/
theorem aluAdc_c (p q : Byte) : (aluAdc p q).c = decide (256 ≤ p.toNat + q.toNat) := by
  calc (aluAdc p q).c
    _ = (p.setWidth 9 + q.setWidth 9 : BitVec 9).msb := (BitVec.msb_eq_getLsbD_last _).symm
    _ = decide (256 ≤ p.toNat + q.toNat) := by rw [BitVec.msb_eq_decide, toNat_zeroExtended_sum]

theorem aluAdc_v (p q : Byte) :
    (aluAdc p q).v = decide (p.msb = q.msb ∧ (aluAdc p q).r.msb ≠ p.msb) := by
  simp only [← getLsbD_seven_eq_msb, Bool.decide_and, ne_eq, decide_not, ← beq_eq_decide]
  rfl

theorem aluAdc_eq (p q : Byte) :
    aluAdc p q =
      { r := BitVec.ofNat 8 ((p.toNat + q.toNat) % 256)
        c := decide (256 ≤ p.toNat + q.toNat)
        v := decide (p.msb = q.msb ∧ (BitVec.ofNat 8 ((p.toNat + q.toNat) % 256) : Byte).msb ≠ p.msb) } := by
  rw [← aluAdc_r, ← aluAdc_c, ← aluAdc_v]

/-! ### SBC's ALU function (R171) -/

theorem aluSbc_r (p q : Byte) : (aluSbc p q).r = BitVec.ofNat 8 ((256 + p.toNat - q.toNat) % 256) := by
  have hq := q.isLt
  apply eq_ofNat_mod_of_toNat
  rw [aluSbc, BitVec.toNat_sub]
  congr 1
  omega

theorem aluSbc_c (p q : Byte) : (aluSbc p q).c = decide (p.toNat < q.toNat) := rfl

theorem aluSbc_v (p q : Byte) :
    (aluSbc p q).v = decide (p.msb ≠ q.msb ∧ (aluSbc p q).r.msb ≠ p.msb) := by
  simp only [← getLsbD_seven_eq_msb, Bool.decide_and, ne_eq, decide_not, ← beq_eq_decide]
  rfl

theorem aluSbc_eq (p q : Byte) :
    aluSbc p q =
      { r := BitVec.ofNat 8 ((256 + p.toNat - q.toNat) % 256)
        c := decide (p.toNat < q.toNat)
        v := decide (p.msb ≠ q.msb ∧ (BitVec.ofNat 8 ((256 + p.toNat - q.toNat) % 256) : Byte).msb ≠ p.msb) } := by
  rw [← aluSbc_r, ← aluSbc_c, ← aluSbc_v]

/-! ### The two operations -/

/-- Settles O26: ADC's ALU function answers the rule's sum, carry and overflow. -/
theorem adcAddsQToP : Obligations.AdcAddsQToP :=
  fun _ => runsAs_of_aluOf aluAdc_eq

/-- Settles O27: SBC's ALU function answers the rule's difference, borrow and overflow. -/
theorem sbcSubtractsQFromP : Obligations.SbcSubtractsQFromP :=
  fun _ => runsAs_of_aluOf aluSbc_eq

end Sys2Proof.Machine

/-! ## AND, OR and XOR (44_logical.md R180, R181, R182) -/

namespace Sys2Proof.Machine

/-! ### The three ALU functions: the bitwise result, with C and V clear (D16) -/

theorem aluAnd_eq (p q : Byte) : aluAnd p q = { r := p &&& q, c := false, v := false } := rfl

theorem aluOr_eq (p q : Byte) : aluOr p q = { r := p ||| q, c := false, v := false } := rfl

theorem aluXor_eq (p q : Byte) : aluXor p q = { r := p ^^^ q, c := false, v := false } := rfl

/-! ### The three operations -/

/-- Settles O28: AND's ALU function answers the bitwise AND, and neither carry nor overflow. -/
theorem andIntoP : Obligations.AndIntoP :=
  fun _ => runsAs_of_aluOf aluAnd_eq

/-- Settles O29: OR's ALU function answers the bitwise inclusive OR, and neither carry nor overflow. -/
theorem orIntoP : Obligations.OrIntoP :=
  fun _ => runsAs_of_aluOf aluOr_eq

/-- Settles O30: XOR's ALU function answers the bitwise exclusive OR, and neither carry nor overflow. -/
theorem xorIntoP : Obligations.XorIntoP :=
  fun _ => runsAs_of_aluOf aluXor_eq

end Sys2Proof.Machine

/-! ## ROT (45_rotate.md R190, which is decision D17) -/

namespace Sys2Proof.Machine

/-! ### ROT's ALU function -/

/-- Masking the count to the low three bits of Q takes it modulo 8. -/
theorem toNat_rotateCount (q : Byte) : (q.extractLsb' 0 3).toNat = q.toNat % 8 := by
  simp only [BitVec.extractLsb'_toNat, Nat.shiftRight_zero, Nat.reducePow]

/-- On bytes the bits shifted out to the left are lost, so the rule's reduction modulo 256 acts on the left shift alone: the
other part is below 256 already. -/
theorem toNat_rotl8 (p : Byte) (n : Nat) :
    (rotl8 p n).toNat = (p.toNat <<< n ||| p.toNat >>> (8 - n)) % 256 := by
  have hright : p.toNat >>> (8 - n) % 2 ^ 8 = p.toNat >>> (8 - n) :=
    Nat.mod_eq_of_lt ((Nat.shiftRight_le _ _).trans_lt p.isLt)
  calc (rotl8 p n).toNat
    _ = p.toNat <<< n % 2 ^ 8 ||| p.toNat >>> (8 - n) := by
      rw [rotl8, BitVec.toNat_or, BitVec.toNat_shiftLeft, BitVec.toNat_ushiftRight]
    _ = (p.toNat <<< n ||| p.toNat >>> (8 - n)) % 2 ^ 8 := by rw [Nat.or_mod_two_pow, hright]

theorem aluRot_r (p q : Byte) :
    (aluRot p q).r =
      BitVec.ofNat 8 ((p.toNat <<< (q.toNat % 8) ||| p.toNat >>> (8 - q.toNat % 8)) % 256) := by
  apply eq_ofNat_mod_of_toNat
  rw [aluRot, toNat_rotl8, toNat_rotateCount]

theorem aluRot_eq (p q : Byte) :
    aluRot p q =
      { r := BitVec.ofNat 8 ((p.toNat <<< (q.toNat % 8) ||| p.toNat >>> (8 - q.toNat % 8)) % 256)
        c := false
        v := false } := by
  rw [← aluRot_r]
  rfl

/-! ### The operation -/

/-- Settles O31: ROT's ALU function answers the rule's rotation, and neither carry nor overflow. -/
theorem rotRotatesPLeft : Obligations.RotRotatesPLeft :=
  fun _ => runsAs_of_aluOf aluRot_eq

end Sys2Proof.Machine

/-! ## Reset with a program (70_reset_and_hazards.md R221) -/

namespace Sys2Proof.Machine

/-! ### What a placed list of bytes reads as -/

/-- An address past the start is at one offset more from the start than from the address after it. -/
theorem toNat_sub_eq_succ_of_ne {a b : Addr} (h : b ≠ a) : (b - a).toNat = (b - (a + 1)).toNat + 1 := by
  bv_omega

/-- Each address has one offset from the start, modulo 2^16. A program of at most 65536 bytes has at most one byte at each, so
no byte is overwritten by a later one. -/
theorem Memory.read_writeBytes (m : Memory) (a b : Addr) {bs : List Byte} (hlen : bs.length ≤ 65536) :
    (m.writeBytes a bs).read b = bs[(b - a).toNat]?.getD (m.read b) := by
  induction bs generalizing m a with
  | nil => rfl
  | cons x bs ih =>
    rw [List.length_cons] at hlen
    rw [Memory.writeBytes, ih (m.write a x) (a + 1) (by omega)]
    by_cases h : b = a
    · have hlast : bs.length ≤ (a - (a + 1)).toNat := by bv_omega
      rw [h, List.getElem?_eq_none hlast, BitVec.sub_self, Memory.read_write_same]
      rfl
    · rw [toNat_sub_eq_succ_of_ne h, List.getElem?_cons_succ, Memory.read_write_ne m x h]

theorem Memory.read_writeBytes_offset (m : Memory) (a : Addr) {bs : List Byte} (hlen : bs.length ≤ 65536)
    {k : Nat} (hk : k < bs.length) : (m.writeBytes a bs).read (a + BitVec.ofNat 16 k) = bs[k] := by
  have hoffset : (a + BitVec.ofNat 16 k - a).toNat = k := by
    rw [BitVec.add_comm, BitVec.add_sub_cancel, BitVec.toNat_ofNat, Nat.mod_eq_of_lt (hk.trans_le hlen)]
  rw [Memory.read_writeBytes m a _ hlen, hoffset, List.getElem?_eq_getElem hk, Option.getD_some]

theorem Memory.read_writeBytes_of_ne (m : Memory) {a b : Addr} {bs : List Byte} (hlen : bs.length ≤ 65536)
    (hb : ∀ k, k < bs.length → b ≠ a + BitVec.ofNat 16 k) : (m.writeBytes a bs).read b = m.read b := by
  have hend : bs.length ≤ (b - a).toNat := by
    by_contra hlt
    refine hb (b - a).toNat (by omega) ?_
    rw [BitVec.ofNat_toNat, BitVec.setWidth_eq, BitVec.add_comm, BitVec.sub_add_cancel]
  rw [Memory.read_writeBytes m a b hlen, List.getElem?_eq_none hend, Option.getD_none]

/-! ### The two answers of a load -/

theorem State.load_refused (start : Addr) {program : List Byte}
    (h : program.length % 4 ≠ 0 ∨ 65536 < program.length) :
    State.load start program = .refused (.programLength program.length) := by
  rw [State.load, if_neg (by omega)]

/-- The machine with `program` placed over zeroes, before PC is written. -/
def State.placed (start : Addr) (program : List Byte) : State :=
  { mem := Memory.writeBytes [] start program, run := .running }

/-- PC is written last, over whatever the program put there. -/
theorem State.load_next (start : Addr) {program : List Byte} (hmul : program.length % 4 = 0)
    (hlen : program.length ≤ 65536) :
    State.load start program = .next ((State.placed start program).setPc start) := by
  rw [State.load, if_pos ⟨hmul, hlen⟩]
  rfl

/-- Settles O46: every byte but PC's two is that of the placed program, or of the zero fill around it. -/
theorem loadPlacesTheProgram : Obligations.LoadPlacesTheProgram := by
  intro start program
  refine ⟨State.load_refused start, fun hmul hlen => ?_⟩
  refine ⟨_, State.load_next start hmul hlen, rfl, State.setPc_pc _ start, fun k hk h0 h1 => ?_,
    fun a h0 h1 hout => ?_⟩
  · rw [State.read_setPc_ne _ start h0 h1]
    exact Memory.read_writeBytes_offset [] start hlen hk
  · rw [State.read_setPc_ne _ start h0 h1]
    exact Memory.read_writeBytes_of_ne [] hlen hout

end Sys2Proof.Machine

/-! ## Words and records (30_encoding.md R70, R73, R74): a word's value is the sum of its fields at their places -/

namespace Sys2Proof

/-! ### Placing a field above the others -/

/-- A field put above bits that are all below it adds up. -/
theorem or_shiftLeft_eq_add {x k : Nat} (h : x < 2 ^ k) (y : Nat) : x ||| y <<< k = x + 2 ^ k * y := by
  rw [Nat.or_comm, ← Nat.shiftLeft_add_eq_or_of_lt h, Nat.shiftLeft_eq, Nat.mul_comm, Nat.add_comm]

theorem toNat_append_eq_add {m n : Nat} (high : BitVec m) (low : BitVec n) :
    (high ++ low).toNat = low.toNat + 2 ^ n * high.toNat := by
  rw [BitVec.toNat_append, Nat.or_comm, or_shiftLeft_eq_add low.isLt]

/-- The sum of R74: each field at the place that R70 gives it. -/
def Record.packed (r : Record) : Nat :=
  r.op + 8 * r.size + 16 * r.cond + 64 * r.mode + 256 * r.reg + 65536 * r.operand16

/-- Every field is below its bound: what the encoder asks of a record (R74). -/
def Record.Fits (r : Record) : Prop :=
  r.op < 8 ∧ r.size < 2 ∧ r.cond < 4 ∧ r.mode < 4 ∧ r.reg < 256 ∧ r.operand16 < 65536

/-- Fields that fit do not overlap, so the disjunction of R74's formula is the sum. -/
theorem Record.or_eq_packed {r : Record} (h : r.Fits) :
    (r.op ||| r.size <<< 3 ||| r.cond <<< 4 ||| r.mode <<< 6 ||| r.reg <<< 8 ||| r.operand16 <<< 16) = r.packed := by
  obtain ⟨hop, hsize, hcond, hmode, hreg, -⟩ := h
  rw [or_shiftLeft_eq_add (k := 3) (by omega), or_shiftLeft_eq_add (k := 4) (by omega),
    or_shiftLeft_eq_add (k := 6) (by omega), or_shiftLeft_eq_add (k := 8) (by omega),
    or_shiftLeft_eq_add (k := 16) (by omega)]
  rfl

theorem Record.packed_lt {r : Record} (h : r.Fits) : r.packed < 2 ^ 32 := by
  obtain ⟨hop, hsize, hcond, hmode, hreg, hoperand⟩ := h
  rw [Record.packed]
  omega

/-! ### The record of an instruction -/

theorem Instr.fits_toRecord (i : Instr) : i.toRecord.Fits :=
  ⟨i.op.code.isLt, i.fields.size.code.isLt, i.fields.cond.code.isLt, i.fields.mode.code.isLt, i.fields.reg.isLt,
    i.fields.operand16.isLt⟩

@[simp] theorem Size.ofCode_code (x : Size) : Size.ofCode x.code = x := by
  cases x <;> rfl

@[simp] theorem Cond.ofCode_code (x : Cond) : Cond.ofCode x.code = x := by
  cases x <;> rfl

@[simp] theorem Mode.ofCode_code (x : Mode) : Mode.ofCode x.code = x := by
  cases x <;> rfl

@[simp] theorem Op.ofCode_code (x : Op) : Op.ofCode x.code = x := by
  cases x <;> rfl

@[simp] theorem Instr.ofOp_op_fields (i : Instr) : Instr.ofOp i.op i.fields = i := by
  cases i <;> rfl

/-- The codes tell sizes, conditions, modes and operations apart, so a record tells instructions apart. -/
theorem Instr.toRecord_injective : Function.Injective Instr.toRecord := by
  intro i j h
  simp only [Instr.toRecord, Record.mk.injEq, BitVec.toNat_inj] at h
  obtain ⟨hop, hsize, hcond, hmode, hreg, hoperand⟩ := h
  have hop : i.op = j.op := Function.LeftInverse.injective Op.ofCode_code hop
  have hsize : i.fields.size = j.fields.size := Function.LeftInverse.injective Size.ofCode_code hsize
  have hcond : i.fields.cond = j.fields.cond := Function.LeftInverse.injective Cond.ofCode_code hcond
  have hmode : i.fields.mode = j.fields.mode := Function.LeftInverse.injective Mode.ofCode_code hmode
  have hfields : i.fields = j.fields := by
    cases hi : i.fields
    cases hj : j.fields
    simp_all
  rw [← Instr.ofOp_op_fields i, hop, hfields, Instr.ofOp_op_fields]

theorem toNat_encode (i : Instr) : (encode i).toNat = i.toRecord.packed := by
  simp only [encode, toNat_append_eq_add, Instr.toRecord, Record.packed]
  ring

/-- Reading the fields off a word whose value is a sum of fields that fit gives those fields. -/
theorem toRecord_decode_of_packed {r : Record} (h : r.Fits) {w : Word} (hw : w.toNat = r.packed) :
    (decode w).toRecord = r := by
  obtain ⟨hop, hsize, hcond, hmode, hreg, hoperand, -⟩ := decoderOutputsAreTheWordsSlices w
  obtain ⟨lop, lsize, lcond, lmode, lreg, loperand⟩ := h
  rw [Record.packed] at hw
  simp only [Instr.toRecord, hop, hsize, hcond, hmode, hreg, hoperand, hw]
  cases r
  simp only [Record.mk.injEq] at *
  omega

theorem packed_toRecord_decode (w : Word) : (decode w).toRecord.packed = w.toNat := by
  obtain ⟨hop, hsize, hcond, hmode, hreg, hoperand, -⟩ := decoderOutputsAreTheWordsSlices w
  simp only [Instr.toRecord, Record.packed, hop, hsize, hcond, hmode, hreg, hoperand]
  omega

/-- Settles O1: the encoding is the sum of the instruction's own record, which the decoder reads back. -/
theorem decodeAfterEncodeIsIdentity : Obligations.DecodeAfterEncodeIsIdentity :=
  fun i => Instr.toRecord_injective (toRecord_decode_of_packed i.fits_toRecord (toNat_encode i))

/-- Settles O2: the fields of a word add up to the word. -/
theorem encodeAfterDecodeIsIdentity : Obligations.EncodeAfterDecodeIsIdentity := by
  intro w
  apply BitVec.eq_of_toNat_eq
  rw [toNat_encode, packed_toRecord_decode]

/-! ### The toolchain's encoder -/

/-- A field that the encoder names is over its bound. -/
def Record.Exceeds (r : Record) : FieldName → Prop
  | .op => 8 ≤ r.op
  | .size => 2 ≤ r.size
  | .cond => 4 ≤ r.cond
  | .mode => 4 ≤ r.mode
  | .reg => 256 ≤ r.reg
  | .operand16 => 65536 ≤ r.operand16

theorem Record.exceeds_of_firstOutOfRange {r : Record} {n : FieldName} (h : r.firstOutOfRange = some n) :
    r.Exceeds n := by
  unfold Record.firstOutOfRange at h
  split_ifs at h <;> cases h <;> assumption

theorem Record.firstOutOfRange_eq_none_iff (r : Record) : r.firstOutOfRange = none ↔ r.Fits := by
  unfold Record.firstOutOfRange Record.Fits
  split_ifs <;> simp <;> omega

theorem encodeRecord_of_fits {r : Record} (h : r.Fits) : encodeRecord r = .ok (BitVec.ofNat 32 r.packed) := by
  simp only [encodeRecord, r.firstOutOfRange_eq_none_iff.mpr h, Record.or_eq_packed h]

theorem encodeRecord_error_iff (r : Record) (n : FieldName) :
    encodeRecord r = .error n ↔ r.firstOutOfRange = some n := by
  cases h : r.firstOutOfRange <;> simp [encodeRecord, h]

/-- The encoder on the record of an instruction answers the instruction's encoding. -/
theorem encodeRecord_toRecord (i : Instr) : encodeRecord i.toRecord = .ok (encode i) := by
  rw [encodeRecord_of_fits i.fits_toRecord, ← toNat_encode, BitVec.ofNat_toNat, BitVec.setWidth_eq]

/-- Settles O3: the encoder answers the sum of fields that fit, and elsewhere the first field over its bound. -/
theorem encoderAcceptsExactlyWhatFits : Obligations.EncoderAcceptsExactlyWhatFits := by
  intro r
  refine ⟨fun hfits => ?_, fun n hn => ?_, fun hover => ?_⟩
  · have hvalue : (BitVec.ofNat 32 r.packed).toNat = r.packed := by
      rw [BitVec.toNat_ofNat, Nat.mod_eq_of_lt (Record.packed_lt hfits)]
    exact ⟨_, encodeRecord_of_fits hfits, hvalue, toRecord_decode_of_packed hfits hvalue⟩
  · have hexceeds := Record.exceeds_of_firstOutOfRange ((encodeRecord_error_iff r n).mp hn)
    cases n <;> exact hexceeds
  · cases hfirst : r.firstOutOfRange with
    | none =>
      obtain ⟨hop, hsize, hcond, hmode, hreg, hoperand⟩ := r.firstOutOfRange_eq_none_iff.mp hfirst
      omega
    | some n => exact ⟨n, (encodeRecord_error_iff r n).mpr hfirst⟩

/-- Settles O5: nine closed words, evaluated. -/
theorem specWordsDecode : Obligations.SpecWordsDecode := by
  unfold Obligations.SpecWordsDecode
  decide

end Sys2Proof

/-! ## What the engine ignores, answers and keeps, over every instruction and every step (40_cycle.md R110 to R127) -/

namespace Sys2Proof.Machine

/-! ### The don't-care bits (30_encoding.md R79, R81) -/

/-- An instruction is what its size, condition, addresses of P and values of Q make of it, over the turns it takes. -/
theorem execGated_congr (alu : Byte → Byte → AluOut) {f g : Fields} (s : State) (hsize : f.size = g.size)
    (hcond : f.cond = g.cond) (hp : ∀ t, pAddr f t = pAddr g t)
    (hq : ∀ t s, t < f.nturns → qValue f t s = qValue g t s) : execGated alu f s = execGated alu g s := by
  have hturn : ∀ t s, t < f.nturns → turn alu f t s = turn alu g t s := fun t s ht => by
    rw [turn, turn, hp, hq t s ht]
  have hturns : turns alu f s = turns alu g s := by
    cases hs : f.size with
    | byte =>
      have h0 : 0 < f.nturns := by simp [Fields.nturns, hs]
      rw [turns_byte alu s hs, turns_byte alu s (hsize.symm.trans hs), hturn 0 s h0]
    | word =>
      have h0 : 0 < f.nturns := by simp [Fields.nturns, hs]
      have h1 : 1 < f.nturns := by simp [Fields.nturns, hs]
      rw [turns_word alu s hs, turns_word alu s (hsize.symm.trans hs), hturn 0 s h0, hturn 1 _ h1]
  simp only [execGated, runTurns, hcond, hturns]

/-- P is in the registers, or, in REG_MEM, at the whole operand16: no mode with don't-care bits finds P by them. -/
theorem pAddr_congr {f g : Fields} (hf : f.mode ≠ .regMem) (hmode : f.mode = g.mode) (hreg : f.reg = g.reg)
    (t : Nat) : pAddr f t = pAddr g t := by
  rw [pAddr_of_ne_regMem t hf, pAddr_of_ne_regMem t (hmode ▸ hf), hreg]

/-- REG_REG finds Q by hi and the indirect flag alone. -/
theorem qValue_congr_regReg {f g : Fields} (hf : f.mode = .regReg) (hmode : f.mode = g.mode) (hhi : f.hi = g.hi)
    (hind : f.ind = g.ind) (t : Nat) (s : State) : qValue f t s = qValue g t s := by
  have hg : g.mode = .regReg := hmode ▸ hf
  simp only [qValue, qAddr, pointer, hf, hg, hhi, hind]

/-- Settles O6: REG_REG reads hi and bit 0 of lo, a byte-size IMM_REG reads lo, and neither has another use of
operand16. -/
theorem dontCareBitsChangeNothing : Obligations.DontCareBitsChangeNothing := by
  intro o f g hsize hcond hmode hreg hsame s
  rw [exec_eq_execGated, exec_eq_execGated]
  simp only [Instr.op_ofOp, Instr.fields_ofOp]
  obtain ⟨hf, hhi, hind⟩ | ⟨hf, hbyte, hlo⟩ := hsame
  · exact execGated_congr _ s hsize hcond (pAddr_congr (by simp [hf]) hmode hreg) fun t s _ =>
      qValue_congr_regReg hf hmode hhi hind t s
  · refine execGated_congr _ s hsize hcond (pAddr_congr (by simp [hf]) hmode hreg) fun t s ht => ?_
    have ht : t = 0 := by simpa [Fields.nturns, hbyte] using ht
    rw [qValue_immReg t s hf, qValue_immReg t s (hmode ▸ hf), ht]
    exact hlo

/-! ### Totality and the one stop (R200, R127) -/

theorem exec_total (i : Instr) (s : State) : ∃ t, exec i s = .next t := by
  cases hcond : condPass i.fields.cond s.sr with
  | true => exact ⟨_, exec_pass hcond⟩
  | false => exact ⟨_, exec_skip hcond⟩

theorem step_total {s : State} (hrun : s.run = .running) : ∃ t, step s = .next t := by
  by_cases hpc : s.pc = 0
  · exact ⟨_, step_pc_zero hrun hpc⟩
  · rw [step_exec hrun hpc]
    exact exec_total _ _

/-- Settles O9: both branches of the gate answer a next state, and so does a halt. -/
theorem runningMachineAlwaysSteps : Obligations.RunningMachineAlwaysSteps := by
  refine ⟨fun i s => ?_, fun s => step_total⟩
  obtain ⟨t, ht⟩ := exec_total i s
  exact ⟨t, ht, exec_next_run ht⟩

/-- Settles O10: whatever state is reached, it is running and steps on, or it is HALTED. -/
theorem onlyHaltedStopsARun : Obligations.OnlyHaltedStopsARun := by
  intro s t _
  cases hrun : t.run with
  | running => exact .inl (step_total hrun)
  | halted => exact .inr ⟨rfl, step_halted hrun⟩

/-! ### The result of a run (R127) -/

theorem runResult_of_halted {s : State} (h : s.run = .halted) (k : Nat) : runResult k s = some s.mem := by
  cases k <;> simp [runResult, h]

/-- One step more does not change a result that is there. -/
theorem runResult_succ {k : Nat} {s : State} {m : Memory} (h : runResult k s = some m) :
    runResult (k + 1) s = some m := by
  induction k generalizing s with
  | zero =>
    have hhalted : s.run = .halted := by
      by_contra hrun
      simp [runResult, hrun] at h
    rw [← h, runResult_of_halted hhalted, runResult_of_halted hhalted]
  | succ k ih =>
    by_cases hhalted : s.run = .halted
    · rw [← h, runResult_of_halted hhalted, runResult_of_halted hhalted]
    · cases hstep : step s with
      | next t =>
        simp only [runResult, hhalted, hstep, if_false] at h
        rw [runResult, if_neg hhalted, hstep]
        exact ih h
      | fault r => simp [runResult, hhalted, hstep] at h
      | refused r => simp [runResult, hhalted, hstep] at h

theorem runResult_mono {s : State} {m : Memory} {j k : Nat} (h : runResult j s = some m) (hjk : j ≤ k) :
    runResult k s = some m := by
  induction k, hjk using Nat.le_induction with
  | base => exact h
  | succ k _ ih => exact runResult_succ ih

/-- Settles O49: two counts that show a result both agree with the greater of them. -/
theorem runResultIsUnique : Obligations.RunResultIsUnique := by
  refine ⟨fun s m₁ m₂ ⟨j, hj⟩ ⟨k, hk⟩ => ?_, fun _ _ _ _ => runResult_mono⟩
  have h₁ := runResult_mono hj (le_max_left j k)
  have h₂ := runResult_mono hk (le_max_right j k)
  exact Option.some.inj (h₁.symm.trans h₂)

/-! ### N and Z (the note to R114's table) -/

/-- A zero result byte has no sign bit. -/
theorem flagsOf_n_of_zero (allZero : Bool) {last : AluOut} (h : (last.r == 0) = true) :
    (flagsOf allZero last).n = false := by
  rw [flagsOf, eq_of_beq h]
  rfl

/-- Z says that the last result byte, whose sign N is, is 0 with the others. -/
theorem turns_n_of_z {alu : Byte → Byte → AluOut} {f : Fields} {s : State} (hz : (turns alu f s).2.z = true) :
    (turns alu f s).2.n = false := by
  cases hsize : f.size with
  | byte =>
    rw [turns_byte alu s hsize] at hz ⊢
    exact flagsOf_n_of_zero _ hz
  | word =>
    rw [turns_word alu s hsize] at hz ⊢
    exact flagsOf_n_of_zero _ (Bool.and_eq_true_iff.mp hz).2

theorem nzExclusive_iff (s : State) : nzExclusive s = true ↔ (srZ s.sr = true → srN s.sr = false) := by
  unfold nzExclusive
  cases srN s.sr <;> simp

/-- Settles O15: SR's N and Z are the flags of the turns. -/
theorem executedInstructionNeverSetsNAndZ : Obligations.ExecutedInstructionNeverSetsNAndZ := by
  intro i s t hpass hexec
  rw [exec_pass hpass] at hexec
  cases hexec
  rw [nzExclusive_iff, runTurns, State.writeFlags_sr, srN_withFlags, srZ_withFlags]
  exact turns_n_of_z

/-- Settles O16: a step that runs no instruction leaves SR as it was. -/
theorem stepKeepsNAndZExclusive : Obligations.StepKeepsNAndZExclusive := by
  intro s t hs hstep
  obtain ⟨-, ⟨-, rfl⟩ | ⟨-, hexec⟩⟩ := step_next hstep
  · exact hs
  · cases hcond : condPass (decode s.fetch).fields.cond (s.setPc (s.pc + 4)).sr with
    | true => exact executedInstructionNeverSetsNAndZ _ _ _ hcond hexec
    | false =>
      rw [exec_skip hcond] at hexec
      cases hexec
      rw [nzExclusive, State.setPc_sr]
      exact hs

/-! ### The canonical memory (log 13) -/

/-- Settles O42: the PC advance and the instruction are writes, each of which keeps the form. -/
theorem stepKeepsMemoryCanonical : Obligations.StepKeepsMemoryCanonical := by
  intro s t hwf hstep
  obtain ⟨-, ⟨-, rfl⟩ | ⟨-, hexec⟩⟩ := step_next hstep
  · exact hwf
  · have hpc : (s.setPc (s.pc + 4)).mem.wf := Memory.wf_write16 hwf _ _
    rw [exec_eq_execGated] at hexec
    obtain ⟨-, rfl⟩ | ⟨-, rfl⟩ := execGated_next hexec
    · exact runTurns_wf _ _ hpc
    · exact hpc

/-- The cells of a canonical memory are the addresses that read as another byte than the unlisted one, with what they
read as. -/
theorem Memory.mem_iff_lookup {m : Memory} (h : m.wf) (c : Host.Cell) :
    c ∈ m ↔ m.lookup c.1 = c.2 ∧ c.2 ≠ unlistedByte := by
  induction m with
  | nil => simpa [Memory.lookup] using fun hc => (Ne.symm · hc)
  | cons d m ih =>
    obtain ⟨hlt, hsorted⟩ := List.pairwise_cons.mp h.1
    have ih := ih ⟨hsorted, fun c hc => h.2 c (List.mem_cons_of_mem d hc)⟩
    have hd : d.2 ≠ unlistedByte := (h.2 d List.mem_cons_self).2
    rw [List.mem_cons, Memory.lookup]
    by_cases hdc : d.1 = c.1
    · have hnot : c ∉ m := fun hc => absurd (hlt c hc) (by omega)
      simp only [hdc, hnot, or_false, if_true]
      refine ⟨?_, fun ⟨heq, _⟩ => Prod.ext hdc.symm heq.symm⟩
      rintro rfl
      exact ⟨rfl, hd⟩
    · have hne : c ≠ d := fun hc => hdc (by rw [hc])
      simp only [hdc, hne, false_or, if_false]
      exact ih

/-- Settles O41: canonical memories that read the same have the same cells, and their order is that of the addresses. -/
theorem canonicalMemoriesReadApart : Obligations.CanonicalMemoriesReadApart := by
  intro m₁ m₂ h₁ h₂ hread
  have hlookup (k : Nat) (hk : k < 65536) : m₁.lookup k = m₂.lookup k := by
    have := hread (BitVec.ofNat 16 k)
    rwa [Memory.read, Memory.read, BitVec.toNat_ofNat, Nat.mod_eq_of_lt hk] at this
  refine List.Pairwise.eq_of_mem_iff h₁.1 h₂.1 fun c => ?_
  constructor <;> intro hc
  · rw [Memory.mem_iff_lookup h₂, ← hlookup c.1 (h₁.2 c hc).1]
    exact (Memory.mem_iff_lookup h₁ c).mp hc
  · rw [Memory.mem_iff_lookup h₁, hlookup c.1 (h₂.2 c hc).1]
    exact (Memory.mem_iff_lookup h₂ c).mp hc

end Sys2Proof.Machine

/-! ## Assembly runs (30_encoding.md R82, R101, R103) -/

namespace Sys2Proof.Machine

theorem assembleStatement_length {cs rest : List Char} {bytes : List Byte}
    (h : assembleStatement cs = .ok (bytes, rest)) : bytes.length = 4 := by
  obtain ⟨_, w, -, -, rfl⟩ := assembleStatement_ok h
  rfl

theorem assembleWith_length {fuel k : Nat} {cs : List Char} {bytes : List Byte}
    (h : assembleWith fuel k cs = .ok bytes) : bytes.length % 4 = 0 := by
  induction fuel generalizing k cs bytes with
  | zero => cases h
  | succ fuel ih =>
    obtain ⟨-, rfl⟩ | ⟨_, word, after, tail, hfuel, -, hword, htail, rfl⟩ := assembleWith_ok h
    · rfl
    · cases hfuel
      rw [List.length_append, assembleStatement_length hword, Nat.add_mod_left]
      exact ih htail

/-- Settles O51: each statement adds four bytes. -/
theorem assembledTextIsWholeWords : Obligations.AssembledTextIsWholeWords :=
  fun _ _ => assembleWith_length

/-- Settles O54: each statement that assembles takes one turn of the driver, and hands the failure of the rest on. -/
theorem failingStatementAbortsTheRun : Obligations.FailingStatementAbortsTheRun := by
  intro fuel k n bytes cs rest e hupTo hfuel hrest hfail
  induction hupTo generalizing fuel k with
  | none cs =>
    obtain ⟨fuel, rfl⟩ := Nat.exists_eq_succ_of_ne_zero (Nat.ne_of_gt hfuel)
    exact assembleWith_of_statement_error fuel k hrest hfail
  | @more cs after rest n word bytes hcs hword _ ih =>
    obtain ⟨fuel, rfl⟩ := Nat.exists_eq_succ_of_ne_zero (Nat.ne_of_gt (Nat.zero_lt_of_lt hfuel))
    have htail := ih fuel (k + 1) (Nat.lt_of_succ_lt_succ hfuel) hrest hfail
    rw [assembleWith_of_statement_ok fuel k hcs hword, htail, Except.map, Nat.add_right_comm]
    rfl

end Sys2Proof.Machine

/-! ## Number literals (30_encoding.md R94) -/

namespace Sys2Proof.Machine

theorem hexValue_hexChar {d : Nat} (hd : d < 16) : hexValue (hexChar d) = some d := by
  interval_cases d <;> rfl

theorem digitsValue_concat (ds : List Nat) (d : Nat) : digitsValue (ds ++ [d]) = digitsValue ds * 16 + d := by
  simp [digitsValue]

theorem takeHex_cons_hexChar {d : Nat} (hd : d < 16) (cs : List Char) :
    takeHex (hexChar d :: cs) = (d :: (takeHex cs).1, (takeHex cs).2) := by
  simp only [takeHex, hexValue_hexChar hd]

theorem takeHex_of_head {rest : List Char} (h : rest.head?.bind hexValue = none) : takeHex rest = ([], rest) := by
  cases rest with
  | nil => rfl
  | cons c cs =>
    have hc : hexValue c = none := h
    simp only [takeHex, hc]

/-- The digits of `n`, most significant first: what the printer's characters stand for. -/
def digitList : Nat → Nat → List Nat
  | 0, _ => []
  | k + 1, n => digitList k (n / 16) ++ [n % 16]

theorem digitList_length (k n : Nat) : (digitList k n).length = k := by
  induction k generalizing n with
  | zero => rfl
  | succ k ih => rw [digitList, List.length_append, ih]; rfl

theorem digitsValue_digitList {k n : Nat} (hn : n < 16 ^ k) : digitsValue (digitList k n) = n := by
  induction k generalizing n with
  | zero => rw [Nat.pow_zero, Nat.lt_one_iff] at hn; rw [hn]; rfl
  | succ k ih =>
    have hdiv : n / 16 < 16 ^ k := Nat.div_lt_of_lt_mul (by rwa [← Nat.pow_succ'])
    rw [digitList, digitsValue_concat, ih hdiv, Nat.div_add_mod']

/-- The printed digits are read back in full, whatever follows them, and the reading goes on after them. -/
theorem takeHex_hexDigits (k n : Nat) (cs : List Char) :
    takeHex (hexDigits k n ++ cs) = (digitList k n ++ (takeHex cs).1, (takeHex cs).2) := by
  induction k generalizing n cs with
  | zero => rfl
  | succ k ih =>
    have hd : n % 16 < 16 := Nat.mod_lt n (by decide)
    rw [hexDigits, List.append_assoc, ih, List.singleton_append, takeHex_cons_hexChar hd, digitList,
      List.append_assoc, List.singleton_append]

/-- A printed number has at least one digit, and is read by its digits' value against the range alone (R94). -/
theorem parseNumber_listNumber {k n : Nat} {rest : List Char} (hk : 0 < k) (hn : n < 16 ^ k)
    (hrest : rest.head?.bind hexValue = none) :
    parseNumber (listNumber k n ++ rest) =
      if 65535 < n then .error .outOfRange else .ok ({ digits := k, value := n }, rest) := by
  have htake : takeHex (hexDigits k n ++ rest) = (digitList k n, rest) := by
    rw [takeHex_hexDigits, takeHex_of_head hrest, List.append_nil]
  have hlength := digitList_length k n
  have hvalue := digitsValue_digitList hn
  cases hds : digitList k n with
  | nil => rw [hds] at hlength; exact absurd hlength (Nat.ne_of_lt hk)
  | cons d ds =>
    rw [hds] at htake hlength hvalue
    have hlength : ds.length + 1 = k := hlength
    simp only [listNumber, List.cons_append, parseNumber, htake, hvalue, hlength, if_true]

/-- Settles O52: the two branches of the range test. -/
theorem numberLiteralsCountTheirDigits : Obligations.NumberLiteralsCountTheirDigits := by
  intro k n rest hk hn hrest
  rw [parseNumber_listNumber hk hn hrest]
  refine ⟨fun hle => ⟨if_neg (by omega), ?_⟩, fun hgt => if_pos hgt⟩
  rw [Number.isRegister, decide_eq_true_iff]

end Sys2Proof.Machine

/-! ## The listing and the assembler (30_encoding.md R90 to R104): each part of a listed statement is read back -/

namespace Sys2Proof.Machine

/-! ### Condition, mnemonic and size -/

@[simp] theorem skipSpace_space (cs : List Char) : skipSpace (' ' :: cs) = skipSpace cs := rfl

theorem skipSpace_cons {c : Char} (h : isSpace c = false) (cs : List Char) : skipSpace (c :: cs) = c :: cs := by
  simp [skipSpace, h]

/-- A mnemonic starts with a letter. -/
theorem listMnemonic_eq_cons {op : Op} (h : op ≠ .reserved) :
    ∃ c cs, listMnemonic op = c :: cs ∧ isSpace c = false ∧ c ≠ '?' := by
  cases op with
  | reserved => exact absurd rfl h
  | mov | adc | sbc | and | or | xor | rot => exact ⟨_, _, rfl, by decide, by decide⟩

theorem skipSpace_listMnemonic {op : Op} (h : op ≠ .reserved) (cs : List Char) :
    skipSpace (listMnemonic op ++ cs) = listMnemonic op ++ cs := by
  obtain ⟨c, tail, heq, hspace, -⟩ := listMnemonic_eq_cons h
  rw [heq]
  exact skipSpace_cons hspace _

theorem skipSpace_listCond {op : Op} (h : op ≠ .reserved) (c : Cond) (cs : List Char) :
    skipSpace (listCond c ++ (listMnemonic op ++ cs)) = listCond c ++ (listMnemonic op ++ cs) := by
  cases c with
  | always => exact skipSpace_listMnemonic h cs
  | gt | lt | eq => exact skipSpace_cons (by decide) _

theorem parseCond_of_ne {c : Char} (h : c ≠ '?') (cs : List Char) : parseCond (c :: cs) = .ok (.always, c :: cs) := by
  unfold parseCond
  split <;> simp_all

theorem parseCond_listCond {op : Op} (h : op ≠ .reserved) (c : Cond) (cs : List Char) :
    parseCond (listCond c ++ (listMnemonic op ++ cs)) = .ok (c, listMnemonic op ++ cs) := by
  have hskip (code : Cond) :
      (.ok (code, skipSpace (' ' :: (listMnemonic op ++ cs))) : Except AsmError _) =
        .ok (code, listMnemonic op ++ cs) := by
    rw [skipSpace_space, skipSpace_listMnemonic h]
  cases c with
  | always =>
    obtain ⟨c, tail, heq, -, hne⟩ := listMnemonic_eq_cons h
    rw [heq]
    exact parseCond_of_ne hne _
  | gt => exact hskip .gt
  | lt => exact hskip .lt
  | eq => exact hskip .eq

theorem parseMnemonic_listMnemonic {op : Op} (h : op ≠ .reserved) (cs : List Char) :
    parseMnemonic (listMnemonic op ++ cs) = .ok (op, cs) := by
  cases op with
  | reserved => exact absurd rfl h
  | mov | adc | sbc | and | or | xor | rot => rfl

theorem parseSize_listSize (size : Size) (cs : List Char) :
    parseSize (listSize size ++ (' ' :: cs)) = (size, ' ' :: cs) := by
  cases size <;> rfl

/-! ### The two operands -/

/-- A number that a literal of its own digit count can be written for (R94). -/
def Number.Literal (n : Number) : Prop :=
  0 < n.digits ∧ n.value < 16 ^ n.digits ∧ n.value ≤ 65535

/-- The number as the listing prints it. -/
def Number.text (n : Number) : List Char := listNumber n.digits n.value

theorem parseNumber_text {n : Number} (h : n.Literal) {rest : List Char} (hrest : rest.head?.bind hexValue = none) :
    parseNumber (n.text ++ rest) = .ok (n, rest) := by
  obtain ⟨hdigits, hvalue, hrange⟩ := h
  rw [Number.text, parseNumber_listNumber hdigits hvalue hrest, if_neg (by omega)]

/-- The number of a second operand. -/
def Second.number : Second → Number
  | .imm n => n
  | .ind n => n
  | .bare n => n

/-- The second operand as the listing prints it (R104). -/
def Second.text : Second → List Char
  | .imm n => '#' :: n.text
  | .ind n => '*' :: n.text
  | .bare n => n.text

theorem skipSpace_text (x : Second) : skipSpace x.text = x.text := by
  cases x <;> exact skipSpace_cons (by decide) _

theorem parseFirst_text {n : Number} (h : n.Literal) {rest : List Char} (hrest : rest.head?.bind hexValue = none) :
    parseFirst (n.text ++ rest) = .ok (n, rest) :=
  parseNumber_text h hrest

/-- A second operand at the end of the text; an indirect one has a register's number (R99). -/
theorem parseSecond_text {x : Second} (h : x.number.Literal) (hind : ∀ n, x = .ind n → n.isRegister = true) :
    parseSecond x.text = .ok (x, []) := by
  have hnumber : parseNumber x.number.text = .ok (x.number, []) := by
    rw [← List.append_nil x.number.text]
    exact parseNumber_text h rfl
  cases x with
  | imm n =>
    have hparse : parseSecond ('#' :: n.text) = (parseNumber n.text).map fun (n, rest) => (.imm n, rest) := rfl
    rw [Second.text, hparse, show parseNumber n.text = _ from hnumber]
    rfl
  | ind n =>
    have hparse : parseNumber n.text = .ok (n, []) := hnumber
    have hstar : '*' ≠ '#' := by decide
    simp only [Second.text, parseSecond, hparse, hind n rfl, hstar, if_false, if_true]
  | bare n =>
    have hparse : parseSecond n.text = (parseNumber n.text).map fun (n, rest) => (.bare n, rest) := rfl
    rw [Second.text, hparse, show parseNumber n.text = _ from hnumber]
    rfl

/-- A listed statement whose operands resolve parses to their record, with no text left. -/
theorem parseStatement_listed {op : Op} (hop : op ≠ .reserved) (c : Cond) (size : Size) {n : Number} {x : Second}
    {r : Record} (hn : n.Literal) (hx : parseSecond x.text = .ok (x, [])) (hr : resolve op size c n x = .ok r) :
    parseStatement (listCond c ++ (listMnemonic op ++ (listSize size ++ (' ' :: (n.text ++ (',' :: ' ' :: x.text)))))) =
      .ok (r, []) := by
  have hcomma : (',' :: ' ' :: x.text).head?.bind hexValue = none := by
    show hexValue ',' = none
    decide
  have hfirst : parseFirst (skipSpace (' ' :: (n.text ++ (',' :: ' ' :: x.text)))) = .ok (n, ',' :: ' ' :: x.text) := by
    rw [skipSpace_space]
    exact parseFirst_text hn hcomma
  have hsep : parseComma (skipSpace (',' :: ' ' :: x.text)) = .ok (' ' :: x.text) := rfl
  have hsecond : parseSecond (skipSpace (' ' :: x.text)) = .ok (x, []) := by
    rw [skipSpace_space, skipSpace_text, hx]
  simp only [parseStatement, parseCond_listCond hop, parseMnemonic_listMnemonic hop, parseSize_listSize, hfirst, hsep,
    hsecond, hr, blame, Except.mapError, bind, Except.bind, pure, Except.pure]

/-! ### The operands of an instruction (R97, R104) -/

/-- The first operand of a listed instruction: P. -/
def listedFirst (f : Fields) : Number :=
  match f.mode with
  | .regMem => { digits := 4, value := f.operand16.toNat }
  | .regReg | .memReg | .immReg => { digits := 2, value := f.reg.toNat }

/-- The second operand of a listed instruction: Q. -/
def listedSecond (f : Fields) : Second :=
  match f.mode, f.size with
  | .regReg, _ =>
    if f.ind then .ind { digits := 2, value := f.hi.toNat } else .bare { digits := 2, value := f.hi.toNat }
  | .regMem, _ => .bare { digits := 2, value := f.reg.toNat }
  | .memReg, _ => .bare { digits := 4, value := f.operand16.toNat }
  | .immReg, .byte => .imm { digits := 2, value := f.lo.toNat }
  | .immReg, .word => .imm { digits := 4, value := f.operand16.toNat }

theorem listOperands_eq (f : Fields) :
    listOperands f = (listedFirst f).text ++ (',' :: ' ' :: (listedSecond f).text) := by
  cases hm : f.mode with
  | regReg => cases hi : f.ind <;> simp [listOperands, listedFirst, listedSecond, Number.text, Second.text, hm, hi]
  | regMem | memReg => simp [listOperands, listedFirst, listedSecond, Number.text, Second.text, hm]
  | immReg => cases hs : f.size <;> simp [listOperands, listedFirst, listedSecond, Number.text, Second.text, hm, hs]

theorem literal_byte (b : Byte) : Number.Literal { digits := 2, value := b.toNat } :=
  ⟨Nat.two_pos, b.isLt, Nat.le_of_lt (b.isLt.trans (by decide))⟩

theorem literal_word (w : BitVec 16) : Number.Literal { digits := 4, value := w.toNat } :=
  ⟨Nat.succ_pos 3, w.isLt, Nat.le_of_lt_succ w.isLt⟩

theorem listedFirst_literal (f : Fields) : (listedFirst f).Literal := by
  unfold listedFirst
  split
  · exact literal_word _
  · exact literal_byte _
  · exact literal_byte _
  · exact literal_byte _

theorem parseSecond_listedSecond (f : Fields) : parseSecond (listedSecond f).text = .ok (listedSecond f, []) := by
  unfold listedSecond
  split
  · split
    · exact parseSecond_text (literal_byte _) fun _ h => by cases h; rfl
    · exact parseSecond_text (literal_byte _) fun _ h => by cases h
  · exact parseSecond_text (literal_byte _) fun _ h => by cases h
  · exact parseSecond_text (literal_word _) fun _ h => by cases h
  · exact parseSecond_text (literal_byte _) fun _ h => by cases h
  · exact parseSecond_text (literal_word _) fun _ h => by cases h

/-- With lo[7:1] zero, operand16 is hi and the indirect flag, as R97 writes them. -/
theorem operand16_regReg {f : Fields} (hm : f.mode = .regReg) (h : f.dontCareZero = true) :
    f.operand16.toNat = f.hi.toNat * 256 + if f.ind then 1 else 0 := by
  have hbits : f.operand16.toNat / 2 % 128 = 0 := by
    simp only [Fields.dontCareZero, hm, beq_iff_eq] at h
    calc f.operand16.toNat / 2 % 128
      _ = (f.operand16.extractLsb' 1 7).toNat := (toNat_extractLsb'_eq_div_mod f.operand16 1 7).symm
      _ = 0 := by rw [h]; rfl
  have hind : f.ind = (f.operand16.toNat % 2 == 1) := by
    rw [Fields.ind_eq_code, hm]
    rfl
  rw [Fields.toNat_hi, hind]
  simp only [beq_iff_eq]
  split <;> omega

/-- With hi zero, operand16 is lo. -/
theorem operand16_immReg_byte {f : Fields} (hm : f.mode = .immReg) (hs : f.size = .byte) (h : f.dontCareZero = true) :
    f.operand16.toNat = f.lo.toNat := by
  have hhi : f.hi = 0 := by
    simp only [Fields.dontCareZero, hm, hs, beq_iff_eq] at h
    exact h
  have hdiv : f.operand16.toNat / 256 = 0 := by
    rw [← Fields.toNat_hi, hhi]
    rfl
  rw [Fields.toNat_lo]
  omega

/-- The mode table finds the instruction's mode, register and operand16 by its listed operands (R97, R98, R100). -/
theorem resolve_listed (i : Instr) (h : i.fields.dontCareZero = true) :
    resolve i.op i.fields.size i.fields.cond (listedFirst i.fields) (listedSecond i.fields) = .ok i.toRecord := by
  cases hm : i.fields.mode with
  | regReg =>
    have hoperand := operand16_regReg hm h
    cases hi : i.fields.ind <;>
      simp [listedFirst, listedSecond, resolve, Number.isRegister, Instr.toRecord, hm, hi, hoperand]
  | regMem | memReg => simp [listedFirst, listedSecond, resolve, Number.isRegister, Instr.toRecord, hm]
  | immReg =>
    cases hs : i.fields.size with
    | byte =>
      have hoperand := operand16_immReg_byte hm hs h
      simp [listedFirst, listedSecond, resolve, Number.isRegister, Instr.toRecord, hm, hs, hoperand]
    | word => simp [listedFirst, listedSecond, resolve, Number.isRegister, Instr.toRecord, hm, hs]

theorem listing_eq {i : Instr} (h : i.op ≠ .reserved) :
    listing i = listCond i.fields.cond ++ (listMnemonic i.op ++ (listSize i.fields.size ++
      (' ' :: ((listedFirst i.fields).text ++ (',' :: ' ' :: (listedSecond i.fields).text))))) := by
  rw [← listOperands_eq]
  cases i with
  | reserved f => exact absurd rfl h
  | mov f | adc f | sbc f | and f | or f | xor f | rot f => rfl

/-- Settles O50: the listing parses to the instruction's own record, whose word is the instruction's encoding. -/
theorem listingReassembles : Obligations.ListingReassembles := by
  intro i hi
  obtain ⟨hop, hdontCare⟩ : i.op ≠ .reserved ∧ i.fields.dontCareZero = true := by
    simpa [Instr.assemblable] using hi
  have hparse : parseStatement (skipSpace (listing i)) = .ok (i.toRecord, []) := by
    rw [listing_eq hop, skipSpace_listCond hop]
    exact parseStatement_listed hop _ _ (listedFirst_literal _) (parseSecond_listedSecond _)
      (resolve_listed i hdontCare)
  exact assemble_of_parse hparse rfl (encodeRecord_toRecord i)

end Sys2Proof.Machine

/-! ## Two-byte values, the flag write and the reset state (20_memory.md R51, 40_cycle.md R122, 70_reset_and_hazards.md
R221) -/

namespace Sys2Proof.Machine

/-- A two-byte read is the append of its bytes, high byte first, whatever was written around it (R8). -/
theorem Memory.read16_write16 (m : Memory) (a : Addr) (v : BitVec 16) : (m.write16 a v).read16 a = v := by
  have hne : a ≠ a + 1 := by bv_omega
  simp only [Memory.read16, Memory.read_write16, hne, if_true, if_false]
  exact extract_append_extract v

/-- Settles O40: the two bytes are the slices of the value. -/
theorem twoByteValuesAreLittleEndian : Obligations.TwoByteValuesAreLittleEndian := by
  intro m a v
  have hne : a ≠ a + 1 := by bv_omega
  have hv := v.isLt
  refine ⟨?_, ?_, Memory.read16_write16 m a v, fun b h0 h1 => ?_⟩
  · rw [Memory.read_write16, if_neg hne, if_pos rfl, toNat_extractLsb'_eq_div_mod]
    omega
  · rw [Memory.read_write16, if_pos rfl, toNat_extractLsb'_eq_div_mod]
    omega
  · rw [Memory.read_write16, if_neg h1, if_neg h0]

theorem withFlags_getLsbD_high (sr : Byte) (fl : Flags) {k : Nat} (hk : 4 ≤ k) :
    (withFlags sr fl).getLsbD k = sr.getLsbD k := by
  by_cases h8 : k < 8
  · rw [withFlags_getLsbD sr fl k h8, if_neg (by omega), if_neg (by omega), if_neg (by omega), if_neg (by omega)]
  · rw [BitVec.getLsbD_of_ge _ _ (by omega), BitVec.getLsbD_of_ge _ _ (by omega)]

/-- Settles O14: the flag write is one write, of `withFlags`, to SR. -/
theorem flagWriteKeepsTheUpperBits : Obligations.FlagWriteKeepsTheUpperBits := by
  intro s fl
  rw [State.writeFlags_sr]
  exact ⟨fun k hk => withFlags_getLsbD_high s.sr fl hk, srZ_withFlags s.sr fl, srN_withFlags s.sr fl,
    srV_withFlags s.sr fl, srC_withFlags s.sr fl, rfl, fun a ha => State.read_writeFlags_ne s fl ha⟩

/-- The reset state is the load of no program: PC written over the zero fill. -/
theorem State.reset_eq : State.reset = (State.placed Config.startAddr []).setPc Config.startAddr := rfl

theorem State.read_reset_of_ne {a : Addr} (h0 : a ≠ pcAddr) (h1 : a ≠ pcAddr + 1) : State.reset.read a = 0x00 := by
  rw [State.reset_eq, State.read_setPc_ne _ _ h0 h1]
  rfl

/-- Settles O43: the zero fill is canonical and a two-byte write keeps it so; SR is 0. -/
theorem resetMeetsTheInvariants : Obligations.ResetMeetsTheInvariants := by
  have hwf : State.reset.mem.wf := by
    rw [State.reset_eq, State.setPc_mem]
    exact Memory.wf_write16 (Memory.wf_writeBytes Memory.wf_nil Config.startAddr []) _ _
  refine ⟨hwf, ?_⟩
  rw [nzExclusive_iff, State.sr, State.read_reset_of_ne srAddr_ne_pcAddr srAddr_ne_pcAddr_succ]
  exact fun _ => rfl

/-- Settles O47: PC's write is the only one over the zero fill. -/
theorem resetIsTheLoadOfNoProgram : Obligations.ResetIsTheLoadOfNoProgram := by
  have hload : State.load Config.startAddr [] = .next State.reset := by
    rw [State.load_next Config.startAddr rfl (Nat.zero_le _), State.reset_eq]
  have hpc : State.reset.pc = Config.startAddr := by
    rw [State.reset_eq, State.setPc_pc]
  exact ⟨hload, rfl, hpc, by decide, by decide, by decide, by decide, fun a h0 h1 => State.read_reset_of_ne h0 h1⟩

/-! ### The word placed for the next fetch (logs 2, 8) -/

/-- What `State.readyToFetch` is for: the next step fetches, at an address whose four bytes are none of PC's. -/
theorem State.readyToFetch_spec (s : State) :
    s.readyToFetch.run = .running ∧ s.readyToFetch.pc ≠ 0 ∧ fetchClearOfPc s.readyToFetch.pc = true := by
  unfold State.readyToFetch
  split
  · assumption
  · have hpc : ({ s.setPc Config.startAddr with run := .running } : State).pc = Config.startAddr :=
      State.setPc_pc s Config.startAddr
    rw [hpc]
    exact ⟨rfl, by decide, by decide⟩

theorem fetchClearOfPc_ne {a : Addr} (h : fetchClearOfPc a = true) {k : Nat} (hk : k < 4) :
    pcAddr ≠ a + BitVec.ofNat 16 k ∧ pcAddr + 1 ≠ a + BitVec.ofNat 16 k := by
  have hall := List.all_eq_true.mp h k (List.mem_range.mpr hk)
  simp only [Bool.and_eq_true, bne_iff_ne] at hall
  exact ⟨hall.1.symm, hall.2.symm⟩

theorem wordBytes_length (w : Word) : (wordBytes w).length = 4 := rfl

theorem wordBytes_length_le (w : Word) : (wordBytes w).length ≤ 65536 := by
  rw [wordBytes_length]
  decide

theorem State.placeAtPc_pc {s : State} (h : fetchClearOfPc s.pc = true) (w : Word) :
    (s.placeAtPc (wordBytes w)).pc = s.pc := by
  have hkeep (b : Addr) (hb : ∀ k, k < 4 → b ≠ s.pc + BitVec.ofNat 16 k) :
      (s.placeAtPc (wordBytes w)).read b = s.read b :=
    Memory.read_writeBytes_of_ne s.mem (wordBytes_length_le w) hb
  rw [State.pc_eq_bytes, hkeep _ fun _ hk => (fetchClearOfPc_ne h hk).1,
    hkeep _ fun _ hk => (fetchClearOfPc_ne h hk).2, ← State.pc_eq_bytes]

/-- A word is its four bytes, the highest first. -/
theorem append_wordBytes (w : Word) :
    w.extractLsb' 24 8 ++ (w.extractLsb' 16 8 ++ (w.extractLsb' 8 8 ++ w.extractLsb' 0 8)) = w := by
  apply BitVec.eq_of_toNat_eq
  have hw := w.isLt
  simp only [toNat_append_eq_add, toNat_extractLsb'_eq_div_mod]
  omega

/-- The four bytes of a word, placed at an address, are read back there as the word (R50). -/
theorem Memory.read32_writeBytes (m : Memory) (a : Addr) (w : Word) : (m.writeBytes a (wordBytes w)).read32 a = w := by
  have hbyte {k : Nat} (hk : k < 4) := Memory.read_writeBytes_offset m a (wordBytes_length_le w) hk
  have h0 : (m.writeBytes a (wordBytes w)).read a = w.extractLsb' 0 8 := by
    have h := hbyte (k := 0) (by decide)
    rwa [BitVec.add_zero] at h
  have h1 : (m.writeBytes a (wordBytes w)).read (a + 1) = w.extractLsb' 8 8 := hbyte (k := 1) (by decide)
  have h2 : (m.writeBytes a (wordBytes w)).read (a + 2) = w.extractLsb' 16 8 := hbyte (k := 2) (by decide)
  have h3 : (m.writeBytes a (wordBytes w)).read (a + 3) = w.extractLsb' 24 8 := hbyte (k := 3) (by decide)
  rw [Memory.read32, h0, h1, h2, h3]
  exact append_wordBytes w

theorem State.placeAtPc_fetch {s : State} (h : fetchClearOfPc s.pc = true) (w : Word) :
    (s.placeAtPc (wordBytes w)).fetch = w := by
  rw [State.fetch, State.placeAtPc_pc h]
  exact Memory.read32_writeBytes s.mem s.pc w

/-- Settles O48: the word is placed clear of PC on a running machine, so it is fetched at the PC it was placed at. -/
theorem storedFetchWordIsRunNext : Obligations.StoredFetchWordIsRunNext := by
  intro s w
  obtain ⟨hrun, hpc, hclear⟩ := s.readyToFetch_spec
  have hword : BitVec.ofNat 32 (w % 2 ^ 32) = BitVec.ofNat 32 w := BitVec.eq_of_toNat_eq (by simp)
  have hrunPlaced : (s.readyToFetch.placeAtPc (wordBytes (BitVec.ofNat 32 w))).run = .running := hrun
  have hpcPlaced : (s.readyToFetch.placeAtPc (wordBytes (BitVec.ofNat 32 w))).pc ≠ 0 := by
    rwa [State.placeAtPc_pc hclear]
  rw [State.withFetchWord, hword, step_exec hrunPlaced hpcPlaced, State.placeAtPc_fetch hclear]

end Sys2Proof.Machine

/-! ## The laws of the ALU (43_arithmetic.md R172, 45_rotate.md R190) -/

namespace Sys2Proof.Machine

/-- A byte's value as a signed number, by its unsigned one. -/
theorem toInt_eq_toNat_of_byte (b : Byte) :
    b.toInt = if 128 ≤ b.toNat then (b.toNat : Int) - 256 else b.toNat := by
  rw [BitVec.toInt_eq_toNat_cond]
  split <;> split <;> omega

theorem msb_iff_of_byte (b : Byte) : b.msb = true ↔ 128 ≤ b.toNat := by
  rw [BitVec.msb_eq_decide, decide_eq_true_iff]

theorem msb_eq_iff_of_byte (a b : Byte) : a.msb = b.msb ↔ (128 ≤ a.toNat ↔ 128 ≤ b.toNat) := by
  rw [Bool.eq_iff_iff, msb_iff_of_byte, msb_iff_of_byte]

theorem toNat_aluAdc_r (p q : Byte) : (aluAdc p q).r.toNat = (p.toNat + q.toNat) % 256 := by
  rw [aluAdc_r, BitVec.toNat_ofNat, Nat.mod_mod]

theorem toNat_aluSbc_r (p q : Byte) : (aluSbc p q).r.toNat = (256 + p.toNat - q.toNat) % 256 := by
  rw [aluSbc_r, BitVec.toNat_ofNat, Nat.mod_mod]

/-- Settles O32: the carry is the 256 that the result byte leaves out, and V compares the three signs. -/
theorem adcFlagsAreArithmetic : Obligations.AdcFlagsAreArithmetic := by
  intro p q
  have hp := p.isLt
  have hq := q.isLt
  refine ⟨?_, ?_⟩
  · simp only [aluAdc_c, toNat_aluAdc_r, decide_eq_true_iff]
    split <;> omega
  · rw [aluAdc_v, decide_eq_true_iff, ne_eq, msb_eq_iff_of_byte, msb_eq_iff_of_byte, toNat_aluAdc_r,
      toInt_eq_toNat_of_byte, toInt_eq_toNat_of_byte]
    split <;> split <;> omega

/-- Settles O33: the borrow is the 256 that the result byte has too much, and V compares the three signs. -/
theorem sbcFlagsAreArithmetic : Obligations.SbcFlagsAreArithmetic := by
  intro p q
  have hp := p.isLt
  have hq := q.isLt
  refine ⟨?_, ?_⟩
  · simp only [aluSbc_c, toNat_aluSbc_r, decide_eq_true_iff]
    split <;> omega
  · rw [aluSbc_v, decide_eq_true_iff, ne_eq, ne_eq, msb_eq_iff_of_byte, msb_eq_iff_of_byte, toNat_aluSbc_r,
      toInt_eq_toNat_of_byte, toInt_eq_toNat_of_byte]
    split <;> split <;> omega

theorem aluRot_r_eq_rotl8 (p q : Byte) : (aluRot p q).r = rotl8 p (q.toNat % 8) := by
  rw [aluRot, toNat_rotateCount]

/-- A bit goes up by the count, or, where that leaves the byte, comes in again at the bottom. -/
theorem rotl8_getLsbD (p : Byte) {n k : Nat} (hn : n < 8) (hk : k < 8) :
    (rotl8 p n).getLsbD ((k + n) % 8) = p.getLsbD k := by
  rw [rotl8, BitVec.getLsbD_or, BitVec.getLsbD_shiftLeft, BitVec.getLsbD_ushiftRight]
  by_cases h : k + n < 8
  · have hout : p.getLsbD (8 - n + (k + n)) = false := BitVec.getLsbD_of_ge _ _ (by omega)
    simp [Nat.mod_eq_of_lt h, h, hout]
  · have hmod : (k + n) % 8 = k + n - 8 := by omega
    have hlow : k + n - 8 < n := by omega
    have hsource : 8 - n + (k + n - 8) = k := by omega
    simp [hmod, hlow, hsource]

/-- A rotate left by the complement of the count is a rotate right. -/
theorem rotl8_eq_rotateRight (p : Byte) {k : Nat} (h1 : 1 ≤ k) (h7 : k ≤ 7) : rotl8 p (8 - k) = p.rotateRight k := by
  have hk : 8 - (8 - k) = k := by omega
  rw [rotl8, hk, BitVec.rotateRight_def, Nat.mod_eq_of_lt (by omega), BitVec.or_comm]

/-- Settles O34: ROT rotates left by Q modulo 8. -/
theorem rotateMovesEachBit : Obligations.RotateMovesEachBit := by
  refine ⟨fun p q k hk => ?_, fun p k h1 h7 => ?_⟩
  · rw [aluRot_r_eq_rotl8, ← Nat.add_mod_mod]
    exact rotl8_getLsbD p (Nat.mod_lt _ (by decide)) hk
  · have hcount : (BitVec.ofNat 8 (8 - k)).toNat % 8 = 8 - k := by
      rw [BitVec.toNat_ofNat]
      omega
    rw [aluRot_r_eq_rotl8, hcount]
    exact rotl8_eq_rotateRight p h1 h7

end Sys2Proof.Machine

/-! ## Instructions on SR, on overlapping operands and on PC (40_cycle.md R118, R123 to R126, 41_operand_resolver.md
R147 to R149) -/

namespace Sys2Proof.Machine

/-! ### An instruction whose P is SR (R123) -/

theorem withFlags_and_high (sr : Byte) (fl : Flags) : withFlags sr fl &&& 0xF0 = sr &&& 0xF0 := by
  apply BitVec.eq_of_getLsbD_eq
  intro k hk
  rw [BitVec.getLsbD_and, BitVec.getLsbD_and]
  by_cases h : 4 ≤ k
  · rw [withFlags_getLsbD_high sr fl h]
  · have hmask : (0xF0 : Byte).getLsbD k = false := by interval_cases k <;> rfl
    rw [hmask, Bool.and_false, Bool.and_false]

/-- Settles O17: SR is the flag write over the result byte itself. -/
theorem writeToSrKeepsOnlyItsUpperBits : Obligations.WriteToSrKeepsOnlyItsUpperBits := by
  intro i s hsize hp hpass
  obtain ⟨hrun, hframe, -, hsr⟩ := runTurns_byteEffect (aluOf i.op) i.fields s hsize
  refine ⟨_, exec_pass hpass, ?_⟩
  intro o
  have ho : aluOf i.op (s.read (pAddr i.fields 0)) (qValue i.fields 0 s) = o := by rw [hp]; rfl
  rw [hsr hp, ho, flagsOf_eq, beq_eq_decide]
  exact ⟨withFlags_and_high _ _, srN_withFlags _ _, srZ_withFlags _ _, srV_withFlags _ _, srC_withFlags _ _, hrun,
    fun a ha => hframe a (hp ▸ ha) ha⟩

/-! ### A word MOV clear of SR, and its overlaps (R147) -/

/-- What a word MOV does where neither byte of P is SR: turn 1 takes Q in the state turn 0 leaves. -/
theorem exec_mov_word {f : Fields} {s : State} (hsize : f.size = .word) (h0 : pAddr f 0 ≠ srAddr)
    (h1 : pAddr f 1 ≠ srAddr) (hpass : condPass f.cond s.sr = true) :
    ∃ t, exec (.mov f) s = .next t ∧ t.run = s.run ∧
      t.read (pAddr f 0) = qValue f 0 s ∧
      t.read (pAddr f 1) = qValue f 1 (s.write (pAddr f 0) (qValue f 0 s)) ∧
      t.sr = withFlags s.sr
        { z := t.read (pAddr f 0) == 0 && t.read (pAddr f 1) == 0, n := (t.read (pAddr f 1)).msb,
          v := false, c := false } ∧
      ∀ a, a ≠ pAddr f 0 → a ≠ pAddr f 1 → a ≠ srAddr → t.read a = s.read a := by
  obtain ⟨hrun, hframe, hp0, hp1, hsr, -, -⟩ := runTurns_wordEffect aluMov f s hsize
  have hlo : (runTurns aluMov f s).read (pAddr f 0) = qValue f 0 s := hp0 h0
  have hhi : (runTurns aluMov f s).read (pAddr f 1) = qValue f 1 (s.write (pAddr f 0) (qValue f 0 s)) := hp1 h1
  refine ⟨runTurns aluMov f s, exec_pass (i := .mov f) hpass, hrun, hlo, hhi, ?_, hframe⟩
  rw [hlo, hhi, ← getLsbD_seven_eq_msb]
  exact hsr h0 h1

/-- Settles O20: turn 1 reads register n + 1, which turn 0 wrote with register n. -/
theorem wordMoveOverlappingByOnePropagates : Obligations.WordMoveOverlappingByOnePropagates := by
  intro f s hsize hmode hind hreg h0 h1 hpass
  obtain ⟨t, hexec, -, hp0, hp1, -, hframe⟩ := exec_mov_word hsize h0 h1 hpass
  have hq0 : qValue f 0 s = s.reg f.hi.toNat := qValue_register 0 s hmode hind
  have hoverlap : regAddr (f.hi.toNat + 1) = pAddr f 0 := by
    rw [pAddr_of_ne_regMem 0 (by simp [hmode]), hreg]
  refine ⟨t, hexec, hp0.trans hq0, ?_, hframe⟩
  rw [hp1, qValue_register 1 _ hmode hind, hoverlap, State.read_write_same, hq0]

/-- The pointer after a write to the register of its low byte. -/
theorem pointer_write_low (f : Fields) (s : State) (v : Byte) :
    pointer f (s.write (regAddr f.hi.toNat) v) = s.reg (f.hi.toNat + 1) ++ v := by
  have hne : regAddr (f.hi.toNat + 1) ≠ regAddr f.hi.toNat := by
    rw [← regAddr_succ]
    generalize regAddr f.hi.toNat = a
    bv_omega
  have hbytes (u : State) : pointer f u = u.read (regAddr f.hi.toNat + 1) ++ u.read (regAddr f.hi.toNat) := rfl
  rw [hbytes, regAddr_succ, State.read_write_same, State.read_write_ne _ _ hne]
  rfl

/-- Settles O21: turn 0 writes the pointer's low byte, and turn 1 resolves Q in that state. -/
theorem pointerIsReadAfreshInTurnOne : Obligations.PointerIsReadAfreshInTurnOne := by
  intro f s hsize hmode hind hreg h0 h1 hpass
  obtain ⟨t, hexec, -, hp0, hp1, -, hframe⟩ := exec_mov_word hsize h0 h1 hpass
  refine ⟨t, hexec, ?_⟩
  intro low newPointer
  have hq0 : qValue f 0 s = low := by
    rw [qValue_indirect 0 s hmode hind, BitVec.add_zero]
    rfl
  have hp : pAddr f 0 = regAddr f.hi.toNat := by
    rw [pAddr_of_ne_regMem 0 (by simp [hmode]), hreg, Nat.add_zero]
  refine ⟨hp0.trans hq0, ?_, hframe⟩
  rw [hp1, hq0, qValue_indirect 1 _ hmode hind, hp, pointer_write_low]
  rfl

/-! ### A word MOV of an immediate (R146, R149) -/

/-- The flags of the two bytes of a word are those of the word (R120). -/
theorem word_flags_eq (w : BitVec 16) (v c : Bool) :
    ({ z := w.extractLsb' 0 8 == 0 && w.extractLsb' 8 8 == 0, n := (w.extractLsb' 8 8).msb, v := v, c := c } : Flags) =
      { z := decide (w = 0), n := w.msb, v := v, c := c } := by
  have hw := w.isLt
  have hz : (w.extractLsb' 0 8 == 0 && w.extractLsb' 8 8 == 0) = decide (w = 0) := by
    rw [Bool.eq_iff_iff, Bool.and_eq_true, beq_iff_eq, beq_iff_eq, decide_eq_true_iff, ← BitVec.toNat_inj,
      ← BitVec.toNat_inj, ← BitVec.toNat_inj, toNat_extractLsb'_eq_div_mod, toNat_extractLsb'_eq_div_mod]
    simp only [BitVec.ofNat_eq_ofNat, BitVec.toNat_ofNat]
    omega
  have hn : (w.extractLsb' 8 8).msb = w.msb := by
    rw [BitVec.msb_eq_decide, BitVec.msb_eq_decide, toNat_extractLsb'_eq_div_mod]
    congr 1
    exact propext (by omega)
  rw [hz, hn]

/-- What a word MOV of an immediate does where neither byte of P is SR. -/
theorem exec_mov_immediate_word {f : Fields} {s : State} (hsize : f.size = .word) (hmode : f.mode = .immReg)
    (h0 : pAddr f 0 ≠ srAddr) (h1 : pAddr f 1 ≠ srAddr) (hpass : condPass f.cond s.sr = true) :
    ∃ t, exec (.mov f) s = .next t ∧ t.run = s.run ∧ t.read (pAddr f 0) = f.lo ∧ t.read (pAddr f 1) = f.hi ∧
      t.sr = withFlags s.sr { z := decide (f.operand16 = 0), n := f.operand16.msb, v := false, c := false } ∧
      ∀ a, a ≠ pAddr f 0 → a ≠ pAddr f 1 → a ≠ srAddr → t.read a = s.read a := by
  obtain ⟨t, hexec, hrun, hp0, hp1, hsr, hframe⟩ := exec_mov_word hsize h0 h1 hpass
  have hlo : t.read (pAddr f 0) = f.lo := hp0.trans (qValue_immReg 0 _ hmode)
  have hhi : t.read (pAddr f 1) = f.hi := hp1.trans (qValue_immReg 1 _ hmode)
  refine ⟨t, hexec, hrun, hlo, hhi, ?_, hframe⟩
  rw [hsr, hlo, hhi]
  exact congrArg (withFlags s.sr) (word_flags_eq f.operand16 false false)

/-- Settles O22: the address after register 255's is 0. -/
theorem wordOnRegister255WrapsToAddressZero : Obligations.WordOnRegister255WrapsToAddressZero := by
  intro c imm s hpass
  let f : Fields := { size := .word, cond := c, mode := .immReg, reg := 0xFF, operand16 := imm }
  have hp0 : pAddr f 0 = 0xFFFF := rfl
  have hp1 : pAddr f 1 = 0x0000 := by rw [pAddr_one, hp0]; decide
  obtain ⟨t, hexec, hrun, hlo, hhi, hsr, hframe⟩ := exec_mov_immediate_word (f := f) (s := s) rfl rfl
    (by rw [hp0]; decide) (by rw [hp1]; decide) hpass
  rw [hp0] at hlo
  rw [hp1] at hhi
  rw [hp0, hp1] at hframe
  exact ⟨t, hexec, hlo, hhi, hsr, hrun, hframe⟩

/-! ### The two lanes of a word (R118) -/

/-- The high byte of a word with an immediate comes from the high byte of P before it, or is that byte. -/
theorem exec_immediate_word_high {i : Instr} {s t : State} (hsize : i.fields.size = .word)
    (hmode : i.fields.mode = .immReg) (h1 : pAddr i.fields 1 ≠ srAddr) (hexec : exec i s = .next t) :
    t.read (pAddr i.fields 1) =
      if condPass i.fields.cond s.sr then (aluOf i.op (s.read (pAddr i.fields 1)) i.fields.hi).r
      else s.read (pAddr i.fields 1) := by
  cases hcond : condPass i.fields.cond s.sr with
  | true =>
    rw [exec_pass hcond] at hexec
    cases hexec
    obtain ⟨-, -, -, hp1, -⟩ := runTurns_wordEffect (aluOf i.op) i.fields s hsize
    rw [if_pos rfl, hp1 h1, qValue_immReg 1 _ hmode]
    rfl
  | false =>
    rw [exec_skip hcond] at hexec
    cases hexec
    rw [if_neg Bool.false_ne_true]

/-- Settles O35: the gate and the high lane read SR and the high byte of P, on which the states agree. -/
theorem highLaneIgnoresTheLowLane : Obligations.HighLaneIgnoresTheLowLane := by
  intro i s₁ s₂ t₁ t₂ hsize hmode h0 h1 hagree hexec₁ hexec₂
  have hsr : s₁.sr = s₂.sr := hagree srAddr h0.symm
  rw [exec_immediate_word_high hsize hmode h1 hexec₁, exec_immediate_word_high hsize hmode h1 hexec₂, hsr,
    hagree _ (pAddr_one_ne_zero i.fields)]

/-! ### Control transfer: PC as P and as Q (R125, R126, R227) -/

/-- Settles O36: both bytes of PC are P, so nothing of the advance is left. -/
theorem immediateMoveToPcJumps : Obligations.ImmediateMoveToPcJumps := by
  intro s c target hrun hpc hdecode hpass
  let f : Fields := { size := .word, cond := c, mode := .immReg, reg := 0x02, operand16 := target }
  have hp0 : pAddr f 0 = pcAddr := rfl
  have hp1 : pAddr f 1 = pcAddr + 1 := rfl
  obtain ⟨t, hexec, hrun', hlo, hhi, hsr, hframe⟩ := exec_mov_immediate_word (f := f) (s := s.setPc (s.pc + 4)) rfl rfl
    (hp0 ▸ srAddr_ne_pcAddr.symm) (hp1 ▸ srAddr_ne_pcAddr_succ.symm) (by rwa [State.setPc_sr])
  rw [hp0] at hlo
  rw [hp1] at hhi
  refine ⟨t, ?_, hrun'.trans hrun, ?_, ?_, fun a h0 h1 h6 => ?_⟩
  · rw [step_exec hrun hpc, hdecode, hexec]
  · rw [State.pc_eq_bytes, hlo, hhi]
    exact extract_append_extract target
  · rw [hsr, State.setPc_sr]
  · rw [hframe a h0 h1 h6, State.read_setPc_ne s _ h0 h1]

theorem State.toNat_pc (s : State) : s.pc.toNat = (s.read pcAddr).toNat + 256 * (s.read (pcAddr + 1)).toNat := by
  rw [State.pc_eq_bytes, toNat_append_eq_add]
  rfl

/-- Settles O37: the byte that is not P is the high byte of the advanced PC. -/
theorem byteMoveToPcStaysInTheAdvancedPage : Obligations.ByteMoveToPcStaysInTheAdvancedPage := by
  intro s c imm hrun hpc hdecode hpass
  let f : Fields := { size := .byte, cond := c, mode := .immReg, reg := 0x02, operand16 := imm }
  have hp0 : pAddr f 0 = pcAddr := rfl
  let s' := s.setPc (s.pc + 4)
  have hpass' : condPass (Instr.mov f).fields.cond s'.sr = true := by rwa [State.setPc_sr]
  obtain ⟨hrun', hframe, hp, -⟩ := runTurns_byteEffect aluMov f s' rfl
  rw [hp0] at hframe hp
  obtain ⟨hlo, -⟩ := hp srAddr_ne_pcAddr.symm
  refine ⟨runTurns aluMov f s', ?_, hrun'.trans hrun, ?_, fun a h0 h1 h6 => ?_⟩
  · rw [step_exec hrun hpc, hdecode]
    exact exec_pass hpass'
  · have hlow : (runTurns aluMov f s').read pcAddr = f.lo := hlo.trans (qValue_immReg (f := f) 0 s' rfl)
    have hhigh : (runTurns aluMov f s').read (pcAddr + 1) = (s.pc + 4).extractLsb' 8 8 := by
      rw [hframe (pcAddr + 1) (by decide) srAddr_ne_pcAddr_succ.symm, State.read_setPc, if_pos rfl]
    have himm : f.lo.toNat = imm.toNat % 256 := f.toNat_lo
    have hword := imm.isLt
    rw [State.toNat_pc, hlow, hhigh, himm, toNat_extractLsb'_eq_div_mod, BitVec.toNat_add]
    simp only [BitVec.ofNat_eq_ofNat, BitVec.toNat_ofNat]
    omega
  · rw [hframe a h0 h6, State.read_setPc_ne s _ h0 h1]

/-- Two indices of at most 256 are the same register only where they are equal: 256 stands at address 0. -/
theorem regAddr_ne {i j : Nat} (hi : i ≤ 256) (hj : j ≤ 256) (h : i ≠ j) : regAddr i ≠ regAddr j := by
  rw [regAddr_eq_ofNat, regAddr_eq_ofNat, ne_eq, ← BitVec.toNat_inj, BitVec.toNat_ofNat, BitVec.toNat_ofNat]
  omega

/-- Settles O38: Q is the two bytes of the advanced PC, and turn 0 does not write the second. -/
theorem pcReadsAsTheAdvancedValue : Obligations.PcReadsAsTheAdvancedValue := by
  intro s c r hrun hpc hdecode hpass h3 h5 h6
  let f : Fields := { size := .word, cond := c, mode := .regReg, reg := r, operand16 := 0x0200 }
  let s' := s.setPc (s.pc + 4)
  have hr := r.isLt
  have hne (k : Nat) (hk : k < 256) (h : r ≠ BitVec.ofNat 8 k) : r.toNat ≠ k := fun heq =>
    h (by rw [← heq, BitVec.ofNat_toNat, BitVec.setWidth_eq])
  have h3 := hne 3 (by decide) h3
  have h5 := hne 5 (by decide) h5
  have h6 := hne 6 (by decide) h6
  have hp0 : pAddr f 0 ≠ srAddr := regAddr_ne (i := r.toNat) (j := 6) (by omega) (by decide) h6
  have hp1 : pAddr f 1 ≠ srAddr := regAddr_ne (i := r.toNat + 1) (j := 6) (by omega) (by decide) (by omega)
  have hkeep : regAddr 3 ≠ pAddr f 0 := regAddr_ne (j := r.toNat) (by decide) (by omega) (Ne.symm h3)
  have hpass' : condPass f.cond s'.sr = true := by rwa [State.setPc_sr]
  obtain ⟨t, hexec, hrun', hlo, hhi, -, -⟩ := exec_mov_word (f := f) (s := s') rfl hp0 hp1 hpass'
  refine ⟨t, ?_, hrun'.trans hrun, ?_⟩
  · rw [step_exec hrun hpc, hdecode, hexec]
  · have hind : f.ind = false := (by decide : (0x0200 : BitVec 16).getLsbD 0 = false)
    have hsource : f.hi = 2 := (by decide : (0x0200 : BitVec 16).extractLsb' 8 8 = 2)
    have hq (k : Nat) (u : State) : qValue f k u = u.read (regAddr (2 + k)) := by
      rw [qValue_register k u rfl hind, hsource]
      rfl
    have hlow : t.reg r.toNat = s'.read pcAddr := hlo.trans (hq 0 s')
    have hhigh : t.reg (r.toNat + 1) = s'.read (pcAddr + 1) := by
      rw [hq] at hhi
      exact hhi.trans (State.read_write_ne s' _ hkeep)
    rw [hlow, hhigh, ← State.toNat_pc, State.setPc_pc, BitVec.toNat_add]
    rfl

end Sys2Proof.Machine

/-! ## The accesses of a cycle: nothing else is written, nothing else is read (20_memory.md R55) -/

namespace Sys2Proof.Machine

/-! ### The bytes that accesses write -/

/-- One of the accesses writes the byte at `a`. -/
def Written (xs : List Access) (a : Addr) : Prop :=
  ∃ x ∈ xs, x.kind = .write ∧ x.covers a = true

@[simp] theorem written_nil (a : Addr) : ¬ Written [] a := by
  simp [Written]

theorem written_append (xs ys : List Access) (a : Addr) : Written (xs ++ ys) a ↔ Written xs a ∨ Written ys a := by
  simp [Written, or_and_right, exists_or]

theorem written_read_cons (b : Addr) (n : Nat) (xs : List Access) (a : Addr) :
    Written ({ kind := .read, addr := b, len := n } :: xs) a ↔ Written xs a := by
  simp [Written]

theorem written_write_one (b a : Addr) : Written [{ kind := .write, addr := b, len := 1 }] a ↔ a = b := by
  simp [Written, Access.covers_one]

theorem written_advanceAccesses (a : Addr) : Written advanceAccesses a ↔ a = pcAddr ∨ a = pcAddr + 1 := by
  simp [Written, advanceAccesses, Config.autoAdvance, Access.covers_two]

theorem written_turnAccesses (f : Fields) (t : Nat) (s : State) (a : Addr) :
    Written (turnAccesses f t s) a ↔ a = pAddr f t := by
  have hpointer : ¬ Written (if f.ind then [{ kind := .read, addr := regAddr f.hi.toNat, len := 2 }] else []) a := by
    split <;> simp [written_read_cons]
  rw [turnAccesses, written_append, written_append, written_append, written_read_cons, written_write_one]
  cases hq : qAddr f t s <;> simp [hpointer, written_read_cons]

theorem turnsAccesses_byte (alu : Byte → Byte → AluOut) {f : Fields} (s : State) (hsize : f.size = .byte) :
    turnsAccesses alu f s = turnAccesses f 0 s := by
  simp only [turnsAccesses, hsize]

theorem turnsAccesses_word (alu : Byte → Byte → AluOut) {f : Fields} (s : State) (hsize : f.size = .word) :
    turnsAccesses alu f s = turnAccesses f 0 s ++ turnAccesses f 1 (turn alu f 0 s).1 := by
  simp only [turnsAccesses, hsize]

/-- The accesses of the flag update (R55, R122). -/
def flagAccesses : List Access :=
  [{ kind := .read, addr := srAddr, len := 1 }, { kind := .write, addr := srAddr, len := 1 }]

theorem written_flagAccesses (a : Addr) : Written flagAccesses a ↔ a = srAddr := by
  rw [flagAccesses, written_read_cons, written_write_one]

theorem instrAccesses_pass {i : Instr} {s : State} (h : condPass i.fields.cond s.sr = true) :
    instrAccesses i s =
      [{ kind := .read, addr := srAddr, len := 1 }] ++ (turnsAccesses (aluOf i.op) i.fields s ++ flagAccesses) := by
  rw [instrAccesses, if_pos h]
  rfl

theorem instrAccesses_skip {i : Instr} {s : State} (h : condPass i.fields.cond s.sr = false) :
    instrAccesses i s = [{ kind := .read, addr := srAddr, len := 1 }] := by
  rw [instrAccesses, h, if_neg Bool.false_ne_true]

theorem cycleAccesses_pc_zero {s : State} (hrun : s.run = .running) (hpc : s.pc = 0) :
    cycleAccesses s = [{ kind := .read, addr := pcAddr, len := 2 }] := by
  simp only [cycleAccesses, hrun, hpc, if_true]

theorem cycleAccesses_exec {s : State} (hrun : s.run = .running) (hpc : s.pc ≠ 0) :
    cycleAccesses s = [{ kind := .read, addr := pcAddr, len := 2 }] ++ ([{ kind := .read, addr := s.pc, len := 4 }] ++
      (advanceAccesses ++ instrAccesses (decode s.fetch) (s.setPc (s.pc + 4)))) := by
  simp only [cycleAccesses, hrun, if_neg hpc]
  rfl

/-! ### A step writes what its accesses write -/

theorem runTurns_read_of_not_written {alu : Byte → Byte → AluOut} {f : Fields} {s : State} {a : Addr}
    (hturns : ¬ Written (turnsAccesses alu f s) a) (hsr : a ≠ srAddr) : (runTurns alu f s).read a = s.read a := by
  cases hsize : f.size with
  | byte =>
    rw [turnsAccesses_byte alu s hsize, written_turnAccesses] at hturns
    obtain ⟨-, hframe, -⟩ := runTurns_byteEffect alu f s hsize
    exact hframe a hturns hsr
  | word =>
    rw [turnsAccesses_word alu s hsize, written_append, written_turnAccesses, written_turnAccesses, not_or] at hturns
    obtain ⟨-, hframe, -⟩ := runTurns_wordEffect alu f s hsize
    exact hframe a hturns.1 hturns.2 hsr

theorem exec_read_of_not_written {i : Instr} {s t : State} {a : Addr} (hexec : exec i s = .next t)
    (h : ¬ Written (instrAccesses i s) a) : t.read a = s.read a := by
  cases hcond : condPass i.fields.cond s.sr with
  | false =>
    rw [exec_skip hcond] at hexec
    cases hexec
    rfl
  | true =>
    rw [exec_pass hcond] at hexec
    cases hexec
    rw [instrAccesses_pass hcond, written_append, written_append, written_flagAccesses, not_or, not_or] at h
    obtain ⟨-, hturns, hsr⟩ := h
    exact runTurns_read_of_not_written hturns hsr

/-- Settles O44: the PC advance and the instruction each write what their accesses say. -/
theorem stepChangesOnlyTheBytesItWrites : Obligations.StepChangesOnlyTheBytesItWrites := by
  intro s t a hstep hout
  have hout : ¬ Written (cycleAccesses s) a := fun ⟨x, hx, hkind, hcovers⟩ => by
    rw [hout x hx hkind] at hcovers
    exact Bool.false_ne_true hcovers
  obtain ⟨hrun, ⟨-, rfl⟩ | ⟨hpc, hexec⟩⟩ := step_next hstep
  · rfl
  · rw [cycleAccesses_exec hrun hpc, written_append, written_append, written_append, written_advanceAccesses, not_or,
      not_or, not_or, not_or] at hout
    obtain ⟨-, -, ⟨h0, h1⟩, hinstr⟩ := hout
    rw [exec_read_of_not_written hexec hinstr, State.read_setPc_ne s _ h0 h1]

/-! ### Two machines that agree on what is read -/

/-- The two states agree on every byte that the accesses read. -/
def AgreeOn (xs : List Access) (s₁ s₂ : State) : Prop :=
  ∀ x ∈ xs, x.kind = .read → ∀ a, x.covers a = true → s₁.read a = s₂.read a

theorem agreeOn_append (xs ys : List Access) (s₁ s₂ : State) :
    AgreeOn (xs ++ ys) s₁ s₂ ↔ AgreeOn xs s₁ s₂ ∧ AgreeOn ys s₁ s₂ :=
  List.forall_mem_append

theorem agreeOn_read (b : Addr) (n : Nat) (s₁ s₂ : State) :
    AgreeOn [{ kind := .read, addr := b, len := n }] s₁ s₂ ↔
      ∀ a, Access.covers { kind := .read, addr := b, len := n } a = true → s₁.read a = s₂.read a := by
  simp [AgreeOn]

theorem agreeOn_read_one (b : Addr) (s₁ s₂ : State) :
    AgreeOn [{ kind := .read, addr := b, len := 1 }] s₁ s₂ ↔ s₁.read b = s₂.read b := by
  simp [agreeOn_read, Access.covers_one]

/-- States that agree on the two bytes at an address agree on the two-byte value. -/
theorem read16_eq_of_agreeOn {b : Addr} {s₁ s₂ : State}
    (h : AgreeOn [{ kind := .read, addr := b, len := 2 }] s₁ s₂) : s₁.mem.read16 b = s₂.mem.read16 b := by
  rw [agreeOn_read] at h
  have h0 : s₁.mem.read b = s₂.mem.read b := h b (by simp [Access.covers_two])
  have h1 : s₁.mem.read (b + 1) = s₂.mem.read (b + 1) := h (b + 1) (by simp [Access.covers_two])
  rw [Memory.read16, Memory.read16, h0, h1]

/-- States that agree on the four bytes at an address agree on the word there. -/
theorem read32_eq_of_agreeOn {b : Addr} {s₁ s₂ : State}
    (h : AgreeOn [{ kind := .read, addr := b, len := 4 }] s₁ s₂) : s₁.mem.read32 b = s₂.mem.read32 b := by
  rw [agreeOn_read] at h
  have h0 : s₁.mem.read b = s₂.mem.read b := h b (by simp [Access.covers_four])
  have h1 : s₁.mem.read (b + 1) = s₂.mem.read (b + 1) := h (b + 1) (by simp [Access.covers_four])
  have h2 : s₁.mem.read (b + 2) = s₂.mem.read (b + 2) := h (b + 2) (by simp [Access.covers_four])
  have h3 : s₁.mem.read (b + 3) = s₂.mem.read (b + 3) := h (b + 3) (by simp [Access.covers_four])
  rw [Memory.read32, Memory.read32, h0, h1, h2, h3]

/-- Two parts of a cycle, from `s₁` to `t₁` with the accesses `xs₁` and from `s₂` to `t₂` with `xs₂`, have the same
effect: the same accesses, after which the states agree wherever they did before, and on every byte written. -/
def SameEffect (xs₁ xs₂ : List Access) (s₁ s₂ t₁ t₂ : State) : Prop :=
  xs₂ = xs₁ ∧ ∀ a, s₁.read a = s₂.read a ∨ Written xs₁ a → t₁.read a = t₂.read a

/-- Reads leave the states as they are. -/
theorem sameEffect_read (b : Addr) (n : Nat) (s₁ s₂ : State) :
    SameEffect [{ kind := .read, addr := b, len := n }] [{ kind := .read, addr := b, len := n }] s₁ s₂ s₁ s₂ := by
  refine ⟨rfl, fun a h => ?_⟩
  rwa [written_read_cons, or_iff_left (written_nil a)] at h

theorem SameEffect.append {xs₁ xs₂ ys₁ ys₂ : List Access} {s₁ s₂ t₁ t₂ u₁ u₂ : State}
    (hxs : SameEffect xs₁ xs₂ s₁ s₂ t₁ t₂) (hys : SameEffect ys₁ ys₂ t₁ t₂ u₁ u₂) :
    SameEffect (xs₁ ++ ys₁) (xs₂ ++ ys₂) s₁ s₂ u₁ u₂ := by
  obtain ⟨rfl, hx⟩ := hxs
  obtain ⟨rfl, hy⟩ := hys
  refine ⟨rfl, fun a h => hy a ?_⟩
  rw [written_append, ← or_assoc] at h
  exact h.imp_left (hx a)

/-- What the rest of the cycle reads is agreed on still. -/
theorem SameEffect.agreeOn {xs₁ xs₂ ys : List Access} {s₁ s₂ t₁ t₂ : State}
    (h : SameEffect xs₁ xs₂ s₁ s₂ t₁ t₂) (hys : AgreeOn ys s₁ s₂) : AgreeOn ys t₁ t₂ :=
  fun x hx hkind a ha => h.2 a (.inl (hys x hx hkind a ha))

/-! ### The parts of a cycle depend on what they read -/

theorem qAddr_congr {f : Fields} {s₁ s₂ : State} (t : Nat) (h : f.ind = true → pointer f s₁ = pointer f s₂) :
    qAddr f t s₁ = qAddr f t s₂ := by
  cases hm : f.mode with
  | regReg => cases hind : f.ind <;> simp_all [qAddr]
  | regMem | memReg | immReg => simp [qAddr, hm]

/-- The address of Q, its value and the accesses of a turn, in two states that agree on what the turn reads. -/
theorem turn_congr {f : Fields} {t : Nat} {s₁ s₂ : State} (h : AgreeOn (turnAccesses f t s₁) s₁ s₂) :
    s₁.read (pAddr f t) = s₂.read (pAddr f t) ∧ qValue f t s₁ = qValue f t s₂ ∧
      turnAccesses f t s₂ = turnAccesses f t s₁ := by
  simp only [turnAccesses, agreeOn_append, agreeOn_read_one] at h
  obtain ⟨hp, hpointer, hq, -⟩ := h
  have haddr : qAddr f t s₁ = qAddr f t s₂ := qAddr_congr t fun hind => by
    rw [if_pos hind] at hpointer
    exact read16_eq_of_agreeOn hpointer
  refine ⟨hp, ?_, by rw [turnAccesses, turnAccesses, haddr]⟩
  rw [qValue, qValue, ← haddr]
  cases hqa : qAddr f t s₁ with
  | none => rfl
  | some a =>
    rw [hqa] at hq
    exact (agreeOn_read_one a s₁ s₂).mp hq

theorem turn_sameEffect {alu : Byte → Byte → AluOut} {f : Fields} {t : Nat} {s₁ s₂ : State}
    (h : AgreeOn (turnAccesses f t s₁) s₁ s₂) :
    (turn alu f t s₂).2 = (turn alu f t s₁).2 ∧
      SameEffect (turnAccesses f t s₁) (turnAccesses f t s₂) s₁ s₂ (turn alu f t s₁).1 (turn alu f t s₂).1 := by
  obtain ⟨hp, hq, haccesses⟩ := turn_congr h
  refine ⟨by rw [turn_out, turn_out, hp, hq], haccesses, fun a ha => ?_⟩
  rw [written_turnAccesses] at ha
  rw [turn_read, turn_read, hp, hq]
  split
  · rfl
  · next hne => exact ha.resolve_right hne

theorem turns_sameEffect {alu : Byte → Byte → AluOut} {f : Fields} {s₁ s₂ : State}
    (h : AgreeOn (turnsAccesses alu f s₁) s₁ s₂) :
    (turns alu f s₂).2 = (turns alu f s₁).2 ∧
      SameEffect (turnsAccesses alu f s₁) (turnsAccesses alu f s₂) s₁ s₂ (turns alu f s₁).1 (turns alu f s₂).1 := by
  cases hsize : f.size with
  | byte =>
    simp only [turnsAccesses_byte alu _ hsize, turns_byte alu _ hsize] at h ⊢
    obtain ⟨hout, heffect⟩ := turn_sameEffect (alu := alu) h
    exact ⟨by rw [hout], heffect⟩
  | word =>
    simp only [turnsAccesses_word alu _ hsize, turns_word alu _ hsize, agreeOn_append] at h ⊢
    obtain ⟨h0, h1⟩ := h
    obtain ⟨hout0, heffect0⟩ := turn_sameEffect (alu := alu) h0
    obtain ⟨hout1, heffect1⟩ := turn_sameEffect (alu := alu) (heffect0.agreeOn h1)
    exact ⟨by rw [hout0, hout1], heffect0.append heffect1⟩

theorem writeFlags_sameEffect {s₁ s₂ : State} (fl : Flags) (h : s₁.sr = s₂.sr) :
    SameEffect flagAccesses flagAccesses s₁ s₂ (s₁.writeFlags fl) (s₂.writeFlags fl) := by
  refine ⟨rfl, fun a ha => ?_⟩
  rw [written_flagAccesses] at ha
  by_cases hsr : a = srAddr
  · rw [hsr]
    show (s₁.writeFlags fl).sr = (s₂.writeFlags fl).sr
    rw [State.writeFlags_sr, State.writeFlags_sr, h]
  · rw [State.read_writeFlags_ne s₁ fl hsr, State.read_writeFlags_ne s₂ fl hsr]
    exact ha.resolve_right hsr

theorem exec_sameEffect {i : Instr} {s₁ s₂ t₁ t₂ : State} (h : AgreeOn (instrAccesses i s₁) s₁ s₂)
    (hexec₁ : exec i s₁ = .next t₁) (hexec₂ : exec i s₂ = .next t₂) :
    SameEffect (instrAccesses i s₁) (instrAccesses i s₂) s₁ s₂ t₁ t₂ := by
  have hsr : s₁.sr = s₂.sr :=
    h { kind := .read, addr := srAddr, len := 1 } List.mem_cons_self rfl srAddr ((Access.covers_one _ _ _).mpr rfl)
  cases hcond₁ : condPass i.fields.cond s₁.sr with
  | false =>
    have hcond₂ : condPass i.fields.cond s₂.sr = false := hsr ▸ hcond₁
    rw [exec_skip hcond₁] at hexec₁
    rw [exec_skip hcond₂] at hexec₂
    cases hexec₁
    cases hexec₂
    rw [instrAccesses_skip hcond₁, instrAccesses_skip hcond₂]
    exact sameEffect_read srAddr 1 s₁ s₂
  | true =>
    have hcond₂ : condPass i.fields.cond s₂.sr = true := hsr ▸ hcond₁
    rw [exec_pass hcond₁] at hexec₁
    rw [exec_pass hcond₂] at hexec₂
    cases hexec₁
    cases hexec₂
    rw [instrAccesses_pass hcond₁, agreeOn_append, agreeOn_append] at h
    obtain ⟨-, hturns, -⟩ := h
    obtain ⟨hflags, heffect⟩ := turns_sameEffect hturns
    rw [instrAccesses_pass hcond₁, instrAccesses_pass hcond₂, runTurns, runTurns, hflags]
    exact (sameEffect_read srAddr 1 s₁ s₂).append
      (heffect.append (writeFlags_sameEffect _ (heffect.2 srAddr (.inl hsr))))

theorem setPc_sameEffect (s₁ s₂ : State) (a : Addr) :
    SameEffect advanceAccesses advanceAccesses s₁ s₂ (s₁.setPc a) (s₂.setPc a) := by
  refine ⟨rfl, fun b hb => ?_⟩
  rw [written_advanceAccesses] at hb
  rw [State.read_setPc, State.read_setPc]
  split
  · rfl
  · next h1 =>
    split
    · rfl
    · next h0 => exact hb.resolve_right (not_or.mpr ⟨h0, h1⟩)

theorem step_sameEffect {s₁ s₂ t₁ t₂ : State} (hrun₁ : s₁.run = .running) (hrun₂ : s₂.run = .running)
    (h : AgreeOn (cycleAccesses s₁) s₁ s₂) (hstep₁ : step s₁ = .next t₁) (hstep₂ : step s₂ = .next t₂) :
    t₂.run = t₁.run ∧ SameEffect (cycleAccesses s₁) (cycleAccesses s₂) s₁ s₂ t₁ t₂ := by
  by_cases hpc₁ : s₁.pc = 0
  · rw [cycleAccesses_pc_zero hrun₁ hpc₁] at h
    have hpc₂ : s₂.pc = 0 := (read16_eq_of_agreeOn h).symm.trans hpc₁
    rw [step_pc_zero hrun₁ hpc₁] at hstep₁
    rw [step_pc_zero hrun₂ hpc₂] at hstep₂
    cases hstep₁
    cases hstep₂
    rw [cycleAccesses_pc_zero hrun₁ hpc₁, cycleAccesses_pc_zero hrun₂ hpc₂]
    exact ⟨rfl, sameEffect_read pcAddr 2 s₁ s₂⟩
  · rw [cycleAccesses_exec hrun₁ hpc₁, agreeOn_append, agreeOn_append, agreeOn_append] at h
    obtain ⟨hpcRead, hfetchRead, -, hinstr⟩ := h
    have hpc : s₁.pc = s₂.pc := read16_eq_of_agreeOn hpcRead
    have hpc₂ : s₂.pc ≠ 0 := hpc ▸ hpc₁
    have hfetch : s₁.fetch = s₂.fetch := by
      rw [State.fetch, State.fetch, ← hpc]
      exact read32_eq_of_agreeOn hfetchRead
    rw [step_exec hrun₁ hpc₁] at hstep₁
    rw [step_exec hrun₂ hpc₂, ← hfetch, ← hpc] at hstep₂
    have hadvance := setPc_sameEffect s₁ s₂ (s₁.pc + 4)
    refine ⟨?_, ?_⟩
    · rw [exec_next_run hstep₁, exec_next_run hstep₂, State.setPc_run, State.setPc_run, hrun₁, hrun₂]
    · rw [cycleAccesses_exec hrun₁ hpc₁, cycleAccesses_exec hrun₂ hpc₂, ← hfetch, ← hpc]
      exact (sameEffect_read pcAddr 2 s₁ s₂).append ((sameEffect_read s₁.pc 4 s₁ s₂).append
        (hadvance.append (exec_sameEffect (hadvance.agreeOn hinstr) hstep₁ hstep₂)))

/-- Settles O45: the parts of the cycle have the same effect one after the other, each on the states the last one
left. -/
theorem stepDependsOnlyOnTheBytesItReads : Obligations.StepDependsOnlyOnTheBytesItReads := by
  intro s₁ s₂ t₁ t₂ hrun₁ hrun₂ hagree hstep₁ hstep₂
  obtain ⟨hrun, haccesses, hread⟩ := step_sameEffect hrun₁ hrun₂ hagree hstep₁ hstep₂
  exact ⟨haccesses, hrun, fun x hx hkind a ha => (hread a (.inr ⟨x, hx, hkind, ha⟩)).symm⟩

end Sys2Proof.Machine
